-- ==== Sys2Proof/Word.lean ====
section
/-! DEFINITION. The word types of the FBAD block (spec/30_encoding.md R60, R67, R70; spec/00_scope.md R8). -/

namespace Sys2Proof

/-- One byte: a framebuffer byte, a control byte, a payload byte, a colour operand (R8). -/
abbrev Byte := BitVec 8

/-- A command word on the command port, 48 bits, bit 0 least significant (R60). -/
abbrev CommandWord := BitVec 48

/-- A response word on the response port, 32 bits, bit 0 least significant (R67). -/
abbrev ResponseWord := BitVec 32

/-- The 7-bit two-wire device address of a transaction (R70). -/
abbrev DevAddr := BitVec 7

end Sys2Proof
end

