-- ==== Sys2Proof/Config.lean ====
section
/-! DEFINITION. The parameters of the block (spec/00_scope.md R6, R7; spec/30_encoding.md R71), the host-side
stream parameters (R6), and the free values of what reset leaves unspecified (spec/10_state.md R33). -/

namespace Sys2Proof

/-- The build-time parameters of one block: geometry, device address, device opcode bytes and initialisation parameter
bytes (R6, R28, R71). They are fixed for the life of the block (R20): no command and no reset writes one. -/
structure Config where
  /-- `WIDTH`, display width in pixels (R6). -/
  width : Nat
  /-- `HEIGHT`, display height in pixels (R6). -/
  height : Nat
  /-- `DEV_ADDR`, the 7-bit device address of every transaction (R6). -/
  devAddr : DevAddr
  opDisplayOff : Byte
  opClockDiv : Byte
  clkdivParam : Byte
  opMultiplex : Byte
  muxParam : Byte
  opDisplayOffset : Byte
  offsetParam : Byte
  opStartLine : Byte
  opChargePump : Byte
  pumpParam : Byte
  opMemoryMode : Byte
  memmodeParam : Byte
  opSegRemap : Byte
  opComScanDec : Byte
  opComPins : Byte
  compinsParam : Byte
  opContrast : Byte
  contrastParam : Byte
  opPrecharge : Byte
  prechargeParam : Byte
  opVcomDeselect : Byte
  vcomParam : Byte
  opDisplayOn : Byte
  opPageAddr : Byte
  pageEndByte : Byte
  opColumnAddr : Byte
deriving DecidableEq, Repr

/-- The default of every parameter, as R6 and R71 tabulate them. The opcode bytes and the clock divider parameter are the
spec's own general knowledge (spec/93_implementation_defined.md G1, G2). -/
def Config.default : Config where
  width := 128
  height := 64
  devAddr := 0x3C#7
  opDisplayOff := 0xAE#8
  opClockDiv := 0xD5#8
  clkdivParam := 0x80#8
  opMultiplex := 0xA8#8
  muxParam := 0x3F#8
  opDisplayOffset := 0xD3#8
  offsetParam := 0x00#8
  opStartLine := 0x40#8
  opChargePump := 0x8D#8
  pumpParam := 0x14#8
  opMemoryMode := 0x20#8
  memmodeParam := 0x00#8
  opSegRemap := 0xA0#8
  opComScanDec := 0xC8#8
  opComPins := 0xDA#8
  compinsParam := 0x12#8
  opContrast := 0x81#8
  contrastParam := 0xCF#8
  opPrecharge := 0xD9#8
  prechargeParam := 0xF1#8
  opVcomDeselect := 0xDB#8
  vcomParam := 0x40#8
  opDisplayOn := 0xAF#8
  opPageAddr := 0x22#8
  pageEndByte := 0xFF#8
  opColumnAddr := 0x21#8

/-- `PAGE_COUNT = HEIGHT / 8`, derived (R6). -/
def Config.pageCount (c : Config) : Nat := c.height / 8

/-- `BUF_LEN = WIDTH * PAGE_COUNT`, derived (R6, R21; spec/90_conflicts.md C1). -/
def Config.bufLen (c : Config) : Nat := c.width * c.pageCount

/-- `T = 6 + PAGE_COUNT * (1 + WIDTH)`, the transactions of one transfer (R115). -/
def Config.transferLen (c : Config) : Nat := 6 + c.pageCount * (1 + c.width)

/-- `CTRL_CMD`, the control byte before a device command byte; fixed (R6, R70). -/
def ctrlCmd : Byte := 0x00#8

/-- `CTRL_DATA`, the control byte before a pixel data byte; fixed (R6, R70). -/
def ctrlData : Byte := 0x40#8

/-- `PAGE_SEL_BASE`, the base opcode of page select; fixed (R6, R72). -/
def pageSelBase : Byte := 0xB0#8

/-- `PAGE_START_BYTE`, the first page of every addressing window (R71, R114). -/
def pageStartByte : Byte := 0x00#8

/-- `COL_START_BYTE`, the first column of every addressing window (R71, R114). -/
def colStartByte : Byte := 0x00#8

/-- The reset draw of framebuffer byte `i` after the `n`-th reset: UNSPECIFIED, each byte an independent draw (R21, R33;
spec/93_implementation_defined.md U1). A free value: it has no body. -/
opaque Config.fbDraw : Nat → Nat → Byte

/-- What the command latch `CMD` holds after the `n`-th reset: UNSPECIFIED (R25, R33, U3). A free value. -/
opaque Config.cmdDraw : Nat → CommandWord

/-- What `RSP` holds after the `n`-th reset, while no response is pending: the spec gives only its valid bit (R31, R33).
A free value. -/
opaque Config.rspDraw : Nat → ResponseWord

/-- What `INIT_K` is drawn from after the `n`-th reset: UNSPECIFIED within its range (R24, R33, U3). A free value. -/
opaque Config.initKDraw : Nat → Nat

/-- What `PAGE_CUR` is drawn from after the `n`-th reset: UNSPECIFIED within its range (R24, R33, U3). A free value. -/
opaque Config.pageDraw : Nat → Nat

/-- What `COL_CUR` is drawn from after the `n`-th reset: UNSPECIFIED within its range (R24, R33, U3). A free value. -/
opaque Config.colDraw : Nat → Nat

/-- `WRAP_RETURN`: the column the host-side string stream returns to on wrap (R6, R144). -/
inductive WrapReturn where
  /-- Column 0, the default. -/
  | zero
  /-- The column the string started in, `px`. -/
  | origin
deriving DecidableEq, Repr

/-- The parameters of the host-side streams only; the block never reads them (R6). `FONT` and `CIRCLE_PT` are functions
and are arguments of the streams that use them (Sys2Proof/Machine/HostStreams.lean). -/
structure HostParams where
  /-- `WRAP_WIDTH`, the wrap column of the string stream. -/
  wrapWidth : Nat
  /-- `WRAP_RETURN`. -/
  wrapReturn : WrapReturn
  /-- `N_CIRCLE`, the number of circle samples. -/
  nCircle : Nat
deriving DecidableEq, Repr

/-- The defaults of R6: 128, ZERO, 63. -/
def HostParams.default : HostParams where
  wrapWidth := 128
  wrapReturn := .zero
  nCircle := 63

end Sys2Proof
end

