-- ==== Sys2Proof/Syntax.lean ====
section
/-! DEFINITION. The eight commands of the FBAD command set, version 1 (spec/00_scope.md R2; spec/30_encoding.md R63, R64). -/

namespace Sys2Proof

/-- A command with the operands it reads (R64). Operands are unsigned numbers (R61); that each fits its field is
`Instr.wf`. A field a command does not read is no part of it (R62, R64). -/
inductive Instr where
  /-- NOP: do nothing (spec/41_pixel_controller.md R90). -/
  | nop
  /-- CLEAR: set every framebuffer byte to 0 (R91). -/
  | clear
  /-- SET_PIXEL x, y, c: set or clear one pixel (R92). -/
  | setPixel (x y c : Nat)
  /-- GET_PIXEL x, y: read one pixel (R93). -/
  | getPixel (x y : Nat)
  /-- DECODE x, y: the address decoder's output (spec/40_address_decoder.md R83). -/
  | decode (x y : Nat)
  /-- READ_BYTE index: read one framebuffer byte (R94). -/
  | readByte (index : Nat)
  /-- INIT: initialise the display, clear the framebuffer and send it (spec/42_page_sequencer.md R112). -/
  | init
  /-- UPDATE: send the whole framebuffer to the device (R113). -/
  | update
deriving DecidableEq, Repr

/-- The mnemonic of a command, as spec/opcode_table.json spells it (R63). -/
def Instr.mnemonic : Instr → String
  | .nop => "NOP"
  | .clear => "CLEAR"
  | .setPixel _ _ _ => "SET_PIXEL"
  | .getPixel _ _ => "GET_PIXEL"
  | .decode _ _ => "DECODE"
  | .readByte _ => "READ_BYTE"
  | .init => "INIT"
  | .update => "UPDATE"

/-- The pseudo-command `PSET x, y` (R73). -/
def Instr.pset (x y : Nat) : Instr := .setPixel x y 1

/-- The pseudo-command `PCLR x, y` (R73). -/
def Instr.pclr (x y : Nat) : Instr := .setPixel x y 0

/-- The operands of a command in assembler order X, Y, C (R73). -/
def Instr.operands : Instr → List Nat
  | .nop => []
  | .clear => []
  | .setPixel x y c => [x, y, c]
  | .getPixel x y => [x, y]
  | .decode x y => [x, y]
  | .readByte index => [index]
  | .init => []
  | .update => []

/-- A command in the assembler's form, numbers in decimal (R73). -/
def Instr.asm (i : Instr) : String :=
  match i.operands with
  | [] => i.mnemonic
  | ops => i.mnemonic ++ " " ++ String.intercalate ", " (ops.map fun n => toString n)

end Sys2Proof
end

