-- ==== Sys2Proof/WellFormed.lean ====
section
/-! DEFINITION. Well-formedness: each operand within its field width (spec/30_encoding.md R60, R74), and the legal
configurations (spec/00_scope.md R6, R7). -/

namespace Sys2Proof

/-- A 16-bit X, Y or index operand (R60, R61). -/
def fitsCoord (n : Nat) : Bool := n < 65536

/-- An 8-bit colour operand (R60, R61). -/
def fitsColour (n : Nat) : Bool := n < 256

/-- Each operand is within its field width (R74). -/
def Instr.wf : Instr → Bool
  | .nop => true
  | .clear => true
  | .setPixel x y c => fitsCoord x && fitsCoord y && fitsColour c
  | .getPixel x y => fitsCoord x && fitsCoord y
  | .decode x y => fitsCoord x && fitsCoord y
  | .readByte index => fitsCoord index
  | .init => true
  | .update => true

/-- A configuration is legal only if `1 <= WIDTH <= 256`, `HEIGHT mod 8 = 0` and `1 <= PAGE_COUNT <= 8` (R7). -/
def Config.legal (c : Config) : Bool :=
  1 ≤ c.width && c.width ≤ 256 && c.height % 8 == 0 && 1 ≤ c.pageCount && c.pageCount ≤ 8

/-- The legal values of the host-side stream parameters: `WRAP_WIDTH` is 1..65535 (R6). -/
def HostParams.legal (p : HostParams) : Bool := 1 ≤ p.wrapWidth && p.wrapWidth ≤ 65535

end Sys2Proof
end

