-- ==== Sys2Proof/Decode.lean ====
section
/-! DEFINITION. Decoding a command word and encoding a command (spec/30_encoding.md R60-R66, R74). -/

namespace Sys2Proof

/-- Why a word is no command: each reason is answered ERR_ILLEGAL (R62; spec/60_exceptions.md R161). -/
inductive DecodeError where
  /-- The field RSV, bits 43:40, is not zero; checked first (R62, R166). -/
  | reservedBits
  /-- The opcode is one of 0x8..0xF (R62, R66). -/
  | reservedOpcode
deriving DecidableEq, Repr

/-- `OP`, bits 47:44 (R60). -/
def opField (w : CommandWord) : Nat := (w.extractLsb' 44 4).toNat

/-- `RSV`, bits 43:40 (R60). -/
def rsvField (w : CommandWord) : Nat := (w.extractLsb' 40 4).toNat

/-- `X`, bits 39:24, unsigned (R60, R61). -/
def xField (w : CommandWord) : Nat := (w.extractLsb' 24 16).toNat

/-- `Y`, bits 23:8, unsigned (R60, R61). -/
def yField (w : CommandWord) : Nat := (w.extractLsb' 8 16).toNat

/-- `C`, bits 7:0, unsigned (R60, R61). -/
def cField (w : CommandWord) : Nat := (w.extractLsb' 0 8).toNat

/-- The command the opcode map assigns to an opcode, its operands the fields it reads (R63, R64). -/
def assignOpcode (op x y c : Nat) : Except DecodeError Instr :=
  match op with
  | 0 => .ok .nop
  | 1 => .ok .clear
  | 2 => .ok (.setPixel x y c)
  | 3 => .ok (.getPixel x y)
  | 4 => .ok (.decode x y)
  | 5 => .ok (.readByte x)
  | 6 => .ok .init
  | 7 => .ok .update
  | _ => .error .reservedOpcode

/-- Decoding, in the order of R62: RSV first, then the opcode; unused fields are ignored. -/
def decodeWord (w : CommandWord) : Except DecodeError Instr :=
  if rsvField w ≠ 0 then .error .reservedBits
  else assignOpcode (opField w) (xField w) (yField w) (cField w)

/-- The decoder on an instruction's bits as spec/opcode_table.json numbers them. The command word is one parallel word of
48 bits with bit 0 least significant (R44, R60), which is the table's own numbering; a number with a bit above bit 47 is
no command word. -/
def decodeTableWord (nbits w : Nat) : Option Instr :=
  if w % 2 ^ nbits < 2 ^ 48 then (decodeWord (BitVec.ofNat 48 (w % 2 ^ nbits))).toOption else none

/-- The opcode of a command (R63). -/
def Instr.opcode : Instr → Nat
  | .nop => 0
  | .clear => 1
  | .setPixel _ _ _ => 2
  | .getPixel _ _ => 3
  | .decode _ _ => 4
  | .readByte _ => 5
  | .init => 6
  | .update => 7

/-- `enc(OP, x, y, c) = (OP << 44) | (x << 24) | (y << 8) | c`, with RSV = 0 (R74). -/
def enc (op x y c : Nat) : CommandWord :=
  BitVec.ofNat 48 ((op <<< 44) ||| (x <<< 24) ||| (y <<< 8) ||| c)

/-- The word of a command; a field it does not read is encoded as 0 (R73, R74). -/
def encode (i : Instr) : CommandWord :=
  match i with
  | .nop => enc 0 0 0 0
  | .clear => enc 1 0 0 0
  | .setPixel x y c => enc 2 x y c
  | .getPixel x y => enc 3 x y 0
  | .decode x y => enc 4 x y 0
  | .readByte index => enc 5 index 0 0
  | .init => enc 6 0 0 0
  | .update => enc 7 0 0 0

/-- The bits of a command word that a command reads or that select it: OP, RSV, and the fields R64 marks "yes". -/
def Instr.fieldMask : Instr → CommandWord
  | .nop => 0xFF0000000000#48
  | .clear => 0xFF0000000000#48
  | .setPixel _ _ _ => 0xFFFFFFFFFFFF#48
  | .getPixel _ _ => 0xFFFFFFFFFF00#48
  | .decode _ _ => 0xFFFFFFFFFF00#48
  | .readByte _ => 0xFFFFFF000000#48
  | .init => 0xFF0000000000#48
  | .update => 0xFF0000000000#48

/-- A row of the opcode table: the words `w` with `w & mask = match` are the mnemonic's (R63). -/
structure OpcodeRow where
  mnemonic : String
  pattern : CommandWord
  mask : CommandWord
deriving DecidableEq, Repr

/-- The opcode map as match and mask: `match = OP << 44`, `mask = 0xFF0000000000`, so OP and RSV are both checked (R63). -/
def opcodeTable : List OpcodeRow :=
  [⟨"NOP", 0x000000000000#48, 0xFF0000000000#48⟩,
   ⟨"CLEAR", 0x100000000000#48, 0xFF0000000000#48⟩,
   ⟨"SET_PIXEL", 0x200000000000#48, 0xFF0000000000#48⟩,
   ⟨"GET_PIXEL", 0x300000000000#48, 0xFF0000000000#48⟩,
   ⟨"DECODE", 0x400000000000#48, 0xFF0000000000#48⟩,
   ⟨"READ_BYTE", 0x500000000000#48, 0xFF0000000000#48⟩,
   ⟨"INIT", 0x600000000000#48, 0xFF0000000000#48⟩,
   ⟨"UPDATE", 0x700000000000#48, 0xFF0000000000#48⟩]

/-- A word falls under a row of the opcode table (R63). -/
def OpcodeRow.holds (r : OpcodeRow) (w : CommandWord) : Bool := w &&& r.mask == r.pattern

end Sys2Proof
end

