-- ==== Sys2Proof/Machine/State.lean ====
section
/-! DEFINITION. The state of the FBAD block and of its four ports (spec/10_state.md R20-R33), and the state after reset. -/

namespace Sys2Proof.Machine

open Sys2Proof

/-- `CTRL_STATE` (R23). -/
inductive CtrlState where
  /-- UNINIT: the display has not been initialised by this block since reset. -/
  | uninit
  /-- READY: INIT has emitted the initialisation bytes. -/
  | ready
  /-- UPDATING: a transfer is in progress. -/
  | updating
deriving DecidableEq, Repr

/-- `SEQ_PHASE` (R24). -/
inductive SeqPhase where
  | idle
  | initCmds
  | initClear
  | addrSetup
  | pageSelect
  | pageData
deriving DecidableEq, Repr

/-- The phases of the transfer, where `CTRL_STATE` is UPDATING (R113). -/
def SeqPhase.inTransfer : SeqPhase → Bool
  | .idle => false
  | .initCmds => false
  | .initClear => false
  | .addrSetup => true
  | .pageSelect => true
  | .pageData => true

/-- `SEQ`, the sequencer's cursor (R24). `setupK`, 0..5, is the place among the six bytes of the addressing window: R113's
lines (1) and (2) have one, and R24 gives it no name (DEDUCED, log entry 4). -/
structure Seq where
  phase : SeqPhase
  initK : Nat
  setupK : Nat
  pageCur : Nat
  colCur : Nat
deriving DecidableEq, Repr

/-- One write on the two-wire bus: address, control byte, payload byte (R70). -/
structure Transaction where
  addr : DevAddr
  ctrl : Byte
  payload : Byte
deriving DecidableEq, Repr

/-- An entry of `RSPLOG`: a response word and the command word that produced it (R32). -/
structure RspEntry where
  cmd : CommandWord
  rsp : ResponseWord
deriving DecidableEq, Repr

/-- What the outside does to the block's inputs between two moves of the block (R30, R190). -/
inductive PortEvent where
  /-- Nothing. -/
  | pause
  /-- The host drives the level of `rst` (R180). -/
  | setRst (level : Bool)
  /-- The host holds out one more word on the command port (R185). -/
  | offer (w : CommandWord)
  /-- The host drives `rsp_ready` (R31). -/
  | setRspReady (level : Bool)
  /-- The sink takes so many more transactions and then stalls; `none`: it never stalls (R117). -/
  | setTxRoom (room : Option Nat)
deriving DecidableEq, Repr

/-- The block's input ports as the outside drives them (R30), and what the outside will do next. They are the model's own
(log entry 5): the spec gives the ports, and not their level at any time. -/
structure Ports where
  /-- The level of `rst` (R180). -/
  rst : Bool
  /-- The words held out on the command port, the first to be accepted first; `cmd_valid` is that there is one. -/
  cmdIn : List CommandWord
  /-- The level of `rsp_ready`. -/
  rspReady : Bool
  /-- How many more transactions the sink accepts (`tx_ready`) before it stalls; `none`: it never stalls. -/
  txRoom : Option Nat
  /-- What the outside does next, one event before each move of the block. -/
  script : List PortEvent
deriving DecidableEq, Repr

/-- No reset, no word on the command port, a host that takes responses, a sink that never stalls, nothing to come. -/
def Ports.quiet : Ports where
  rst := false
  cmdIn := []
  rspReady := true
  txRoom := none
  script := []

/-- The bytes of `FB` written since reset: index and byte, indices strictly rising. An index that is not listed has not
been written since reset and holds its reset draw (R21; log entry 1). -/
abbrev Memory := List Host.Cell

/-- The state of the block (R20), its two histories (R32), its parameters (R6), its ports (R30). -/
structure State where
  /-- The parameters of this block (R6, R20): fixed for its life. -/
  cfg : Config
  /-- `FB` (R21), as the bytes written since reset. -/
  fb : Memory
  /-- `CTRL_STATE` (R23). -/
  ctrl : CtrlState
  /-- `SEQ` (R24). -/
  seq : Seq
  /-- `BUSY` (R25); `cmd_ready` is its negation (R30). -/
  busy : Bool
  /-- `CMD`, the command latch (R25). -/
  cmd : CommandWord
  /-- `RSP`, the response register (R31). -/
  rsp : ResponseWord
  /-- `rsp_valid`, the valid bit of `RSP` (R20, R31). -/
  rspValid : Bool
  /-- The transaction offered to the sink and not yet accepted; `tx_valid` is that there is one (R30, R33, R117). -/
  txOffer : Option Transaction
  /-- `TXLOG`: every transaction the sink has accepted, in order (R32). -/
  txLog : List Transaction
  /-- `RSPLOG`: every response the host has accepted, in order, with its command word (R32). -/
  rspLog : List RspEntry
  /-- How many resets were taken: the number of the reset draws in force. The model's own field (log entry 1). -/
  resets : Nat
  /-- The input ports and what the outside does next. The model's own field (log entry 5). -/
  ports : Ports
deriving DecidableEq, Repr

/-- Why the machine stops. The block itself has no trap and never stops (R160, R168); the one reason is the model's. -/
inductive Fault where
  /-- Raised by resuming a cut sequence (`resume`) where the cursor `SEQ` lies outside the ranges R24 gives it, so that it
  is no state of the block. Safe: no run from a state within the ranges reaches it. -/
  | seqCursorOutOfRange
deriving DecidableEq, Repr

/-- Why the model gives no meaning. -/
inductive Refusal where
  /-- Raised by an arm of `exec` whose instruction has no meaning yet. Safe. No arm raises it. -/
  | notModelled (mnemonic : String)
  /-- Raised by every command and by every step of a block whose configuration is illegal: 'A model must refuse an illegal
  configuration. It must not give one a meaning.' (R7). Safe. -/
  | illegalConfiguration
deriving DecidableEq, Repr

/-- The reset values of R33 for a block of configuration `c`, with the reset draws of the `n`-th reset, empty histories and
quiet ports. -/
def State.atReset (c : Config) (n : Nat) : State where
  cfg := c
  fb := []
  ctrl := .uninit
  seq :=
    { phase := .idle
      initK := Config.initKDraw n % 23
      setupK := 0
      pageCur := Config.pageDraw n % c.pageCount
      colCur := Config.colDraw n % c.width }
  busy := false
  cmd := Config.cmdDraw n
  rsp := Config.rspDraw n
  rspValid := false
  txOffer := none
  txLog := []
  rspLog := []
  resets := n
  ports := Ports.quiet

/-- The machine right after its first reset: the default configuration (R6) at the reset values of R33, with nothing yet
in either history. -/
def State.reset : State := State.atReset Config.default 0

end Sys2Proof.Machine
end

