-- ==== Sys2Proof/Machine/Flags.lean ====
section
/-! DEFINITION. The per-command indicators STATUS and INR and the response word that carries them (spec/10_state.md R27;
spec/30_encoding.md R67-R69). The block has no persistent flags. -/

namespace Sys2Proof.Machine

open Sys2Proof

/-- The outcome of a command (R69). -/
inductive Status where
  /-- The command completed. -/
  | ok
  /-- Reserved opcode, or RSV not zero (spec/60_exceptions.md R161). -/
  | errIllegal
  /-- UPDATE while `CTRL_STATE` is UNINIT (R162). -/
  | errState
  /-- READ_BYTE with `index >= BUF_LEN` (R163). -/
  | errRange
deriving DecidableEq, Repr

/-- The 4-bit code of a status (R69). -/
def statusCode : Status → BitVec 4
  | .ok => 0x0#4
  | .errIllegal => 0x1#4
  | .errState => 0x2#4
  | .errRange => 0x3#4

/-- The response word `{s[3:0], inr, 000, idx[15:0], data[7:0]}` (R67). -/
def rspWord (st : Status) (inr : Bool) (idx : Nat) (data : Byte) : ResponseWord :=
  statusCode st ++ BitVec.ofBool inr ++ 0#3 ++ BitVec.ofNat 16 idx ++ data

/-- `STATUS`, bits 31:28 of a response (R67). -/
def rspStatus (r : ResponseWord) : BitVec 4 := r.extractLsb' 28 4

/-- `INR`, bit 27 of a response (R67). -/
def rspInr (r : ResponseWord) : Bool := r.getLsbD 27

/-- Bits 26:24 of a response, reserved (R67). -/
def rspReserved (r : ResponseWord) : BitVec 3 := r.extractLsb' 24 3

/-- `IDX`, bits 23:8 of a response (R67). -/
def rspIdx (r : ResponseWord) : Nat := (r.extractLsb' 8 16).toNat

/-- `DATA`, bits 7:0 of a response (R67). -/
def rspData (r : ResponseWord) : Byte := r.extractLsb' 0 8

end Sys2Proof.Machine
end

