-- ==== Sys2Proof/Machine/Operands.lean ====
section
/-! DEFINITION. The operand forms: the coordinate through the address decoder (spec/40_address_decoder.md R80-R82), the
colour class and the byte index (spec/30_encoding.md R61). -/

namespace Sys2Proof.Machine

open Sys2Proof

/-- The output of the address decoder: in-range flag, framebuffer index, one-hot mask (R80). -/
structure Decoded where
  inr : Bool
  idx : Nat
  mask : Byte
deriving DecidableEq, Repr

/-- A coordinate is in range: `x < WIDTH` and `y < HEIGHT` (R11, R81 law 2). -/
def inRange (c : Config) (x y : Nat) : Bool := x < c.width && y < c.height

/-- The index of the byte that holds pixel `(x, y)`: `x + (y >> 3) * WIDTH` (R22, R80). -/
def pixelIdx (c : Config) (x y : Nat) : Nat := x + (y / 8) * c.width

/-- The mask of the bit that holds a pixel of row `y`: `1 << (y & 7)` (R22, R80). -/
def pixelMask (y : Nat) : Byte := 1#8 <<< (y % 8)

/-- `decode(x, y)`, the address decoder (R80). Out of range is not clamped: the outputs are 0. -/
def addrDecode (c : Config) (x y : Nat) : Decoded :=
  if inRange c x y then ⟨true, pixelIdx c x y, pixelMask y⟩ else ⟨false, 0, 0#8⟩

/-- The column of bit `b` of byte `idx` (R82). -/
def pixelX (c : Config) (idx : Nat) : Nat := idx % c.width

/-- The row of bit `b` of byte `idx` (R82). -/
def pixelY (c : Config) (idx b : Nat) : Nat := (idx / c.width) * 8 + b

/-- The colour class of a colour operand: on when it is not 0 (R61). -/
def colourOn (c : Nat) : Bool := c != 0

/-- The byte that SET_PIXEL writes: `old | mask` when on, `old & ~mask` when off (R92). -/
def setBit (old mask : Byte) (on : Bool) : Byte := if on then old ||| mask else old &&& ~~~mask

/-- The pixel value that GET_PIXEL reads: 0x01 when the bit is set, else 0x00 (R93). -/
def getBit (byte mask : Byte) : Byte := if byte &&& mask ≠ 0#8 then 0x01#8 else 0x00#8

/-- A byte index is mapped: `index < BUF_LEN` (R48, R94). -/
def indexMapped (c : Config) (index : Nat) : Bool := index < c.bufLen

end Sys2Proof.Machine
end

