-- ==== Sys2Proof/Machine/Ops.lean ====
section
/-! DEFINITION. The shared operations: framebuffer access (spec/10_state.md R21, spec/20_memory.md), responding and ending
in an error (spec/00_scope.md R10, spec/60_exceptions.md R165), taking a reset (spec/70_reset_and_hazards.md R180), and the
refusal of an illegal configuration (spec/00_scope.md R7). -/

namespace Sys2Proof.Machine

open Sys2Proof

/-! ### The written bytes of the framebuffer -/

/-- The byte written at index `a` since reset, if one was. -/
def Memory.read? (m : Memory) (a : Nat) : Option Byte :=
  match m with
  | [] => none
  | (k, v) :: rest => if k = a then some v else Memory.read? rest a

/-- Write byte `v` at index `a`, in its place in the rising order. -/
def Memory.write (m : Memory) (a : Nat) (v : Byte) : Memory :=
  match m with
  | [] => [(a, v)]
  | (k, u) :: rest =>
    if k < a then (k, u) :: Memory.write rest a v
    else if k = a then (a, v) :: rest
    else (a, v) :: (k, u) :: rest

/-- Byte `v` at every index below `n`. -/
def Memory.fill (n : Nat) (v : Byte) : Memory := (List.range n).map fun i => (i, v)

/-- Every listed index is at least `lo` and below `n`, and indices rise strictly. -/
def Memory.wfFrom (lo n : Nat) (m : Memory) : Bool :=
  match m with
  | [] => true
  | (k, _) :: rest => lo ≤ k && k < n && Memory.wfFrom (k + 1) n rest

/-- The canonical form of the written bytes of a framebuffer of `n` bytes: indices strictly rising, each below `n`. An
index that is not listed has no written byte, so no entry can equal what an unlisted index reads as. -/
def Memory.wf (n : Nat) (m : Memory) : Bool := Memory.wfFrom 0 n m

/-! ### The framebuffer -/

/-- `FB[i]`: the byte last written since reset, or the reset draw where there is none (R21, R50). Meaningful below
`BUF_LEN` (R10); no command reads `FB` elsewhere. -/
def State.fbByte (s : State) (i : Nat) : Byte := (s.fb.read? i).getD (Config.fbDraw s.resets i)

/-- `FB[i] <- v` (R10). Applied below `BUF_LEN` only. -/
def State.writeFb (s : State) (i : Nat) (v : Byte) : State := { s with fb := s.fb.write i v }

/-- `for i in 0 .. BUF_LEN-1: FB[i] <- 0x00` (R91, R112). -/
def State.clearFb (s : State) : State := { s with fb := Memory.fill s.cfg.bufLen 0x00#8 }

/-- The colour of pixel `(x, y)`: bit `y mod 8` of byte `FB[x + (y/8)*WIDTH]`, 1 is on (R22). -/
def State.pixel (s : State) (x y : Nat) : Bool := (s.fbByte (pixelIdx s.cfg x y)).getLsbD (y % 8)

/-! ### Ending a command -/

/-- `Respond(status, inr, idx, data)`: the current command ends and its response word is presented (R10, R31). `BUSY` stays
1 until the host accepts it (R25). -/
def State.respond (s : State) (st : Status) (inr : Bool) (idx : Nat) (data : Byte) : State :=
  { s with rsp := rspWord st inr idx data, rspValid := true }

/-- `raise E`: the current command ends with `Respond(E, 0, 0, 0)` and no other effect (R10, R165). The block's errors are
status codes; it has no trap to take and none to return from (R160, R168). -/
def State.raiseError (s : State) (st : Status) : State := s.respond st false 0 0x00#8

/-- The effect `body` of a command in a legal configuration; an illegal one is refused and given no meaning (R7). -/
def command (s : State) (body : State → State) : Host.Outcome State Fault Refusal :=
  if s.cfg.legal then .next (body s) else .refused .illegalConfiguration

/-! ### Reset -/

/-- Reset is taken: every component goes to its value in R33, `FB` to fresh draws; the command in progress, its offered
transaction and an unaccepted response are lost (R31, R181); the histories are unchanged (R32), the parameters are fixed
(R20), and the inputs stay as the outside drives them. -/
def State.takeReset (s : State) : State :=
  { State.atReset s.cfg (s.resets + 1) with
    txLog := s.txLog
    rspLog := s.rspLog
    ports := s.ports }

end Sys2Proof.Machine
end

