-- ==== Sys2Proof/Machine/AddressDecoder.lean ====
section
/-! DEFINITION. The command DECODE (spec/40_address_decoder.md R83); the decoder itself is `addrDecode` in Operands. -/

namespace Sys2Proof.Machine

open Sys2Proof

/-- DECODE (R83): the decoder's output for a coordinate, in every `CTRL_STATE`. -/
def execDecode (x y : Nat) (s : State) : Host.Outcome State Fault Refusal :=
  command s fun s =>
    let d := addrDecode s.cfg x y
    s.respond .ok d.inr d.idx d.mask

end Sys2Proof.Machine
end

