-- ==== Sys2Proof/Machine/PixelController.lean ====
section
/-! DEFINITION. The RMW pixel controller: NOP, CLEAR, SET_PIXEL, GET_PIXEL, READ_BYTE (spec/41_pixel_controller.md). Each is
accepted in every `CTRL_STATE` and emits no transaction. -/

namespace Sys2Proof.Machine

open Sys2Proof

/-- NOP (R90). -/
def execNop (s : State) : Host.Outcome State Fault Refusal :=
  command s fun s => s.respond .ok false 0 0x00#8

/-- CLEAR (R91). -/
def execClear (s : State) : Host.Outcome State Fault Refusal :=
  command s fun s => s.clearFb.respond .ok false 0 0x00#8

/-- SET_PIXEL (R92): read-modify-write of the pixel's byte; out of range is a silent no-op (R164). -/
def execSetPixel (x y c : Nat) (s : State) : Host.Outcome State Fault Refusal :=
  command s fun s =>
    let d := addrDecode s.cfg x y
    if d.inr then
      let new := setBit (s.fbByte d.idx) d.mask (colourOn c)
      (s.writeFb d.idx new).respond .ok true d.idx new
    else s.respond .ok false 0 0x00#8

/-- GET_PIXEL (R93). -/
def execGetPixel (x y : Nat) (s : State) : Host.Outcome State Fault Refusal :=
  command s fun s =>
    let d := addrDecode s.cfg x y
    if d.inr then s.respond .ok true d.idx (getBit (s.fbByte d.idx) d.mask)
    else s.respond .ok false 0 0x00#8

/-- READ_BYTE (R94): an unmapped index is ERR_RANGE, never wrapped or clamped. -/
def execReadByte (index : Nat) (s : State) : Host.Outcome State Fault Refusal :=
  command s fun s =>
    if indexMapped s.cfg index then s.respond .ok true index (s.fbByte index)
    else s.raiseError .errRange

end Sys2Proof.Machine
end

