-- ==== Sys2Proof/Machine/Sequencer.lean ====
section
/-! DEFINITION. The page-addressing sequencer: the emitted bytes, the cursor's moves, INIT and UPDATE
(spec/42_page_sequencer.md). A sequence runs as far as the sink accepts; a stalled one keeps its place in `SEQ` and is
resumed by a later step (R117), or cut short by reset (R181). -/

namespace Sys2Proof.Machine

open Sys2Proof

/-! ### The bytes -/

/-- The transaction of `EmitCmd(b)` (R119). -/
def cmdTx (c : Config) (b : Byte) : Transaction := ⟨c.devAddr, ctrlCmd, b⟩

/-- The transaction of `EmitData(b)` (R119). -/
def dataTx (c : Config) (b : Byte) : Transaction := ⟨c.devAddr, ctrlData, b⟩

/-- The initialisation table, 23 device command bytes (R111). -/
def initTable (c : Config) : List Byte :=
  [c.opDisplayOff, c.opClockDiv, c.clkdivParam, c.opMultiplex, c.muxParam, c.opDisplayOffset, c.offsetParam,
   c.opStartLine, c.opChargePump, c.pumpParam, c.opMemoryMode, c.memmodeParam, c.opSegRemap ||| 0x01#8,
   c.opComScanDec, c.opComPins, c.compinsParam, c.opContrast, c.contrastParam, c.opPrecharge, c.prechargeParam,
   c.opVcomDeselect, c.vcomParam, c.opDisplayOn]

/-- The addressing window, 6 device command bytes: the full page range, then the full column range (R113 (1), (2); R114). -/
def windowBytes (c : Config) : List Byte :=
  [c.opPageAddr, pageStartByte, c.pageEndByte, c.opColumnAddr, colStartByte, BitVec.ofNat 8 (c.width - 1)]

/-- The page select byte `PAGE_SEL_BASE | p` (R72). -/
def pageSelByte (p : Nat) : Byte := pageSelBase ||| BitVec.ofNat 8 p

/-! ### The cursor -/

/-- The cursor is within the ranges R24 gives it. -/
def State.cursorInRange (s : State) : Bool :=
  s.seq.initK < 23 && s.seq.setupK < 6 && s.seq.pageCur < s.cfg.pageCount && s.seq.colCur < s.cfg.width

/-- The transaction the sequence emits at its cursor; none where it emits nothing (R111, R113). -/
def State.seqTx (s : State) : Option Transaction :=
  match s.seq.phase with
  | .idle => none
  | .initCmds => some (cmdTx s.cfg ((initTable s.cfg).getD s.seq.initK 0x00#8))
  | .initClear => none
  | .addrSetup => some (cmdTx s.cfg ((windowBytes s.cfg).getD s.seq.setupK 0x00#8))
  | .pageSelect => some (cmdTx s.cfg (pageSelByte s.seq.pageCur))
  | .pageData => some (dataTx s.cfg (s.fbByte (s.seq.colCur + s.seq.pageCur * s.cfg.width)))

/-- The sequencer comes to the controller state `c` and the cursor `q`. -/
def State.goTo (s : State) (c : CtrlState) (q : Seq) : State := { s with ctrl := c, seq := q }

/-- `Transfer()` begins: UPDATING, ADDR_SETUP (R113). -/
def State.startTransfer (s : State) : State := s.goTo .updating { s.seq with phase := .addrSetup, setupK := 0 }

/-- INIT begins: INIT_CMDS at table entry 0 (R112). -/
def State.startInit (s : State) : State := s.goTo s.ctrl { s.seq with phase := .initCmds, initK := 0 }

/-- The transfer, and with it the command, ends: READY, IDLE, `Respond(OK, 0, 0, 0)` (R112, R113). -/
def State.endSequence (s : State) : State :=
  (s.goTo .ready { s.seq with phase := .idle }).respond .ok false 0 0x00#8

/-- The sequence goes on to the place after its cursor, in the order of R111 and R113 (R26). -/
def State.seqNext (s : State) : State :=
  match s.seq.phase with
  | .idle => s
  | .initCmds =>
    if s.seq.initK < 22 then s.goTo s.ctrl { s.seq with initK := s.seq.initK + 1 }
    else s.goTo .ready { s.seq with phase := .initClear }
  | .initClear => s.clearFb.startTransfer
  | .addrSetup =>
    if s.seq.setupK < 5 then s.goTo s.ctrl { s.seq with setupK := s.seq.setupK + 1 }
    else s.goTo s.ctrl { s.seq with phase := .pageSelect, pageCur := 0 }
  | .pageSelect => s.goTo s.ctrl { s.seq with phase := .pageData, colCur := 0 }
  | .pageData =>
    if s.seq.colCur + 1 < s.cfg.width then s.goTo s.ctrl { s.seq with colCur := s.seq.colCur + 1 }
    else if s.seq.pageCur + 1 < s.cfg.pageCount then
      s.goTo s.ctrl { s.seq with phase := .pageSelect, pageCur := s.seq.pageCur + 1 }
    else s.endSequence

/-! ### The sink -/

/-- The sink stalls: it accepts no transaction now (R117). -/
def State.sinkStalls (s : State) : Bool := s.ports.txRoom == some 0

/-- The sink accepts the offered transaction, which joins `TXLOG` (R32, R119). -/
def State.acceptTx (s : State) (t : Transaction) : State :=
  { s with
    txOffer := none
    txLog := s.txLog ++ [t]
    ports := { s.ports with txRoom := s.ports.txRoom.map (· - 1) } }

/-- The sequence waits: it has a transaction to emit and the sink does not accept it (R117). -/
def State.seqWaits (s : State) : Bool := s.seqTx.isSome && s.sinkStalls

/-- One place of the sequence: its transaction, if it has one, is accepted, and the sequence goes on. -/
def State.seqMove (s : State) : State :=
  match s.seqTx with
  | none => s.seqNext
  | some t => (s.acceptTx t).seqNext

/-- Emit as long as the sink accepts; where it stalls, the transaction stays offered and the sequence waits, without a
timeout (R117). `fuel` only bounds the recursion; `seqFuel` places are enough for every sequence. -/
def seqRun (fuel : Nat) (s : State) : State :=
  match fuel with
  | 0 => s
  | fuel + 1 =>
    if s.seq.phase = .idle then s
    else if s.seqWaits then { s with txOffer := s.seqTx }
    else seqRun fuel s.seqMove

/-- The places of the longest sequence: the table, the clear, and the transfer (R115). -/
def seqFuel (c : Config) : Nat := 23 + 1 + c.transferLen

/-- The sequence in progress runs from its cursor as far as the sink accepts. -/
def State.runSequence (s : State) : State := seqRun (seqFuel s.cfg) s

/-- Resume the sequence in progress. A cursor outside the ranges of R24 is no state of the block. -/
def resume (s : State) : Host.Outcome State Fault Refusal :=
  if s.cursorInRange then .next s.runSequence else .fault .seqCursorOutOfRange

/-! ### The commands -/

/-- INIT (R112): the 23 table bytes, then READY, the clear, and a transfer; accepted in UNINIT and in READY. -/
def execInit (s : State) : Host.Outcome State Fault Refusal :=
  command s fun s => s.startInit.runSequence

/-- UPDATE (R113): ERR_STATE in UNINIT (R162), otherwise one transfer of the whole framebuffer. -/
def execUpdate (s : State) : Host.Outcome State Fault Refusal :=
  command s fun s =>
    if s.ctrl = .uninit then s.raiseError .errState else s.startTransfer.runSequence

end Sys2Proof.Machine
end

