-- ==== Sys2Proof/Machine/PortMoves.lean ====
section
/-! DEFINITION. The moves at the block's four ports (spec/10_state.md R25, R30, R31; spec/70_reset_and_hazards.md R180, R185,
R190): what the outside does, accepting a command, delivering a response, and the one move the block makes in a step. -/

namespace Sys2Proof.Machine

open Sys2Proof

/-- What an event of the outside does to the input ports (R190). -/
def Ports.apply (p : Ports) (e : PortEvent) : Ports :=
  match e with
  | .pause => p
  | .setRst level => { p with rst := level }
  | .offer w => { p with cmdIn := p.cmdIn ++ [w] }
  | .setRspReady level => { p with rspReady := level }
  | .setTxRoom room => { p with txRoom := room }

/-- The next event of the outside, if there is one, lands. -/
def State.takeEvent (s : State) : State :=
  match s.ports.script with
  | [] => s
  | e :: rest => { s with ports := ({ s.ports with script := rest } : Ports).apply e }

/-- The block accepts a command word: it is latched in `CMD`, `BUSY` becomes 1, and the host drops it (R25). -/
def State.latch (s : State) (w : CommandWord) (rest : List CommandWord) : State :=
  { s with busy := true, cmd := w, ports := { s.ports with cmdIn := rest } }

/-- The host accepts the response, which joins `RSPLOG` with its command word, and `BUSY` becomes 0 (R25, R31, R32). -/
def State.deliver (s : State) : State :=
  { s with busy := false, rspValid := false, rspLog := s.rspLog ++ [⟨s.cmd, s.rsp⟩] }

/-- An illegal word: ERR_ILLEGAL and no other effect (R62, R161, R165). -/
def illegalWord (s : State) : Host.Outcome State Fault Refusal :=
  command s fun s => s.raiseError .errIllegal

/-- A latched word is decoded and run (R62). -/
def runWord (w : CommandWord) (s : State) : Host.Outcome State Fault Refusal :=
  match decodeWord w with
  | .ok i => exec i s
  | .error _ => illegalWord s

/-- The one move the block makes. While `rst` is asserted, reset is taken and nothing else (R180). A busy block delivers its
response once the host is ready (R31), or goes on with its sequence (R117). A block that is not busy accepts the next
word (R30), and without one does nothing (R182). -/
def blockMove (s : State) : Host.Outcome State Fault Refusal :=
  if s.ports.rst then .next s.takeReset
  else if s.busy then
    if s.rspValid then
      if s.ports.rspReady then .next s.deliver else .next s
    else resume s
  else
    match s.ports.cmdIn with
    | [] => .next s
    | w :: rest => runWord w (s.latch w rest)

/-- The outside's next event lands, and then the block moves; an illegal configuration is refused (R7). -/
def portStep (s : State) : Host.Outcome State Fault Refusal :=
  if s.cfg.legal then blockMove s.takeEvent else .refused .illegalConfiguration

/-- Word `w` is held out first on the command port of a block that is free to accept it in the very next step: `rst` low,
not busy, no response pending, and no event of the outside before the block's move. -/
def State.present (s : State) (w : CommandWord) : State :=
  { s with
    busy := false
    rspValid := false
    ports := { s.ports with rst := false, cmdIn := w :: s.ports.cmdIn, script := .pause :: s.ports.script } }

end Sys2Proof.Machine
end

