-- ==== Sys2Proof/Machine/Step.lean ====
section
/-! DEFINITION. One step of the machine (spec/10_state.md R30: one event per word or per transaction, with no clock). -/

namespace Sys2Proof.Machine

open Sys2Proof

/-- One step: the outside's next event, then one move of the block. -/
def step (s : State) : Host.Outcome State Fault Refusal := portStep s

/-- The state in which the next step accepts and runs the command word with bits `w`: the block fetches nothing (R54), so
the word is held out on the command port. -/
def State.withFetchWord (s : State) (nbits w : Nat) : State := s.present (BitVec.ofNat 48 (w % 2 ^ nbits))

end Sys2Proof.Machine
end

