-- ==== Sys2Proof/Machine/HostStreams.lean ====
section
/-! DEFINITION. The command streams the host issues for the drawing primitives (spec/43_host_primitives.md R140-R146). They
are not behaviour of the block, which does not know that a command came from one. -/

namespace Sys2Proof.Machine

open Sys2Proof

/-- Why the host refuses a call. -/
inductive HostRefusal where
  /-- A bitmap shorter than `h * ceil(w/8)` bytes has no meaning (R141; spec/93_implementation_defined.md U6). -/
  | bitmapTooShort
  /-- A `WRAP_WIDTH` outside its legal values 1..65535 has no meaning (R6; log entry 13). -/
  | illegalWrapWidth
deriving DecidableEq, Repr

/-- Issue SET_PIXEL; for a coordinate that no 16-bit field can hold the host issues nothing, and never wraps it (R140). -/
def issue (x y c : Nat) : List Instr :=
  if x ≤ 65535 ∧ y ≤ 65535 then [.setPixel x y c] else []

/-- The commands of one bitmap column: a source bit of 1 issues, a source bit of 0 does not; the most significant bit is
the leftmost (R141). -/
def bitmapPixel (x y : Nat) (bitmap : List Byte) (bw : Nat) (on : Bool) (row col : Nat) : List Instr :=
  if bitmap.getD (row * bw + col / 8) 0x00#8 &&& (0x80#8 >>> (col % 8)) ≠ 0#8 then
    issue (x + col) (y + row) (if on then 1 else 0)
  else []

/-- `draw_bitmap(x, y, bitmap, w, h, color)` (R141). -/
def drawBitmap (x y : Nat) (bitmap : List Byte) (w h : Nat) (on : Bool) : Except HostRefusal (List Instr) :=
  let bw := (w + 7) / 8
  if bitmap.length < h * bw then .error .bitmapTooShort
  else .ok ((List.range h).flatMap fun row => (List.range w).flatMap fun col => bitmapPixel x y bitmap bw on row col)

/-- A glyph's full 5 x 7 cell at `(cx, cy)`: column outer, row inner; a 0 bit clears its pixel (R143). -/
def drawGlyph (g : Fin 5 → Byte) (cx cy : Nat) : List Instr :=
  (List.finRange 5).flatMap fun (col : Fin 5) =>
    (List.range 7).flatMap fun j => issue (cx + col.val) (cy + j) (((g col) >>> j) &&& 1#8).toNat

/-- Where the next glyph is drawn: on a new line if its last column would be at or beyond `WRAP_WIDTH` (R144). Reached only
through `drawString`, which refuses an illegal `WRAP_WIDTH`. -/
def wrapCursor (hp : HostParams) (px cx cy : Nat) : Nat × Nat :=
  if hp.wrapWidth ≤ cx + 4 then
    match hp.wrapReturn with
    | .zero => (0, cy + 8)
    | .origin => (px, cy + 8)
  else (cx, cy)

/-- The glyphs of a text from the cursor `(cx, cy)` on, at a 6-pixel advance (R143, R144). -/
def drawGlyphs (hp : HostParams) (font : Byte → Fin 5 → Byte) (px cx cy : Nat) (text : List Byte) : List Instr :=
  match text with
  | [] => []
  | ch :: rest =>
    let at' := wrapCursor hp px cx cy
    drawGlyph (font ch) at'.1 at'.2 ++ drawGlyphs hp font px (at'.1 + 6) at'.2 rest

/-- `draw_string(px, py, text)` (R143). `font` is the parameter `FONT` (R6). An illegal `WRAP_WIDTH` is refused (R6). -/
def drawString (hp : HostParams) (font : Byte → Fin 5 → Byte) (px py : Nat) (text : List Byte) :
    Except HostRefusal (List Instr) :=
  if hp.legal then .ok (drawGlyphs hp font px px py text) else .error .illegalWrapWidth

/-- Issue an always-on SET_PIXEL at a point of the circle; a negative or unencodable one issues nothing (R145). -/
def circlePixel (p : Int × Int) : List Instr :=
  if 0 ≤ p.1 ∧ p.1 ≤ 65535 ∧ 0 ≤ p.2 ∧ p.2 ≤ 65535 then [.setPixel p.1.toNat p.2.toNat 1] else []

/-- `draw_circle(xc, yc, r)` (R145). `pt` is the parameter `CIRCLE_PT` (R6), which no model computes. -/
def drawCircle (hp : HostParams) (pt : Int → Int → Int → Nat → Int × Int) (xc yc r : Int) : List Instr :=
  (List.range hp.nCircle).flatMap fun k => circlePixel (pt xc yc r k)

/-- The host holds the words of a stream out on the command port, behind those already there (R185, R190). -/
def State.offerStream (s : State) (stream : List Instr) : State :=
  { s with ports := { s.ports with cmdIn := s.ports.cmdIn ++ stream.map encode } }

/-- The effects of a stream of commands, one after the other in the order they are issued, each complete before the next
(spec/20_memory.md R50). -/
def execStream (stream : List Instr) (s : State) : Host.Outcome State Fault Refusal :=
  match stream with
  | [] => .next s
  | i :: rest =>
    match exec i s with
    | .next t => execStream rest t
    | .fault r => .fault r
    | .refused r => .refused r

end Sys2Proof.Machine
end

