-- ==== Sys2Proof/Safety.lean ====
section
/-! DEFINITION. The terms claims use: the transactions of a whole sequence and those still to come, the room of the sink, and
the invariant that every step keeps. -/

namespace Sys2Proof.Machine

open Sys2Proof

/-! ### The transactions of a sequence -/

/-- The 23 transactions of the initialisation table (spec/42_page_sequencer.md R111). -/
def initTxs (c : Config) : List Transaction := (initTable c).map (cmdTx c)

/-- The 6 transactions of the addressing window (R113 (1), (2); R114). -/
def windowTxs (c : Config) : List Transaction := (windowBytes c).map (cmdTx c)

/-- The data transactions of page `p`, one per column (R113 (3)). -/
def rowTxs (s : State) (p : Nat) : List Transaction :=
  (List.range s.cfg.width).map fun col => dataTx s.cfg (s.fbByte (col + p * s.cfg.width))

/-- The transactions of page `p`: its select, then its data (R113 (3)). -/
def pageTxs (s : State) (p : Nat) : List Transaction := cmdTx s.cfg (pageSelByte p) :: rowTxs s p

/-- The transactions of the pages from `p` on. -/
def pagesFrom (s : State) (p : Nat) : List Transaction := ((List.range s.cfg.pageCount).drop p).flatMap (pageTxs s)

/-- The transactions of one whole transfer of the framebuffer as it stands (R113, R51). -/
def transferTxs (s : State) : List Transaction := windowTxs s.cfg ++ pagesFrom s 0

/-- The transactions of one whole INIT: the table, then a transfer of the cleared framebuffer (R112). -/
def initSequenceTxs (s : State) : List Transaction := initTxs s.cfg ++ transferTxs s.clearFb

/-- The transactions still to come from the cursor on. -/
def seqRest (s : State) : List Transaction :=
  match s.seq.phase with
  | .idle => []
  | .initCmds => (initTxs s.cfg).drop s.seq.initK ++ transferTxs s.clearFb
  | .initClear => transferTxs s.clearFb
  | .addrSetup => (windowTxs s.cfg).drop s.seq.setupK ++ pagesFrom s 0
  | .pageSelect => pagesFrom s s.seq.pageCur
  | .pageData => (rowTxs s s.seq.pageCur).drop s.seq.colCur ++ pagesFrom s (s.seq.pageCur + 1)

/-- The sink accepts at least `n` more transactions before it stalls (R117). -/
def State.roomFor (s : State) (n : Nat) : Bool :=
  match s.ports.txRoom with
  | none => true
  | some m => n ≤ m

/-- The room that is left after the sink accepted `n` transactions. -/
def State.roomAfter (s : State) (n : Nat) : Option Nat := s.ports.txRoom.map (· - n)

/-! ### The invariant -/

/-- A transaction has the device address and one of the two control bytes (spec/30_encoding.md R70). -/
def Transaction.framed (c : Config) (t : Transaction) : Prop :=
  t.addr = c.devAddr ∧ (t.ctrl = ctrlCmd ∨ t.ctrl = ctrlData)

/-- A response carries one of the four status codes, and its reserved bits are 000 (R67, R69). -/
def rspFramed (r : ResponseWord) : Prop := rspStatus r ≤ 3#4 ∧ rspReserved r = 0#3

/-- What holds of every state of a legal block that a run can reach. -/
structure State.Inv (s : State) : Prop where
  /-- The configuration is legal (R7). -/
  legal : s.cfg.legal = true
  /-- The written bytes of `FB` are in canonical form, each below `BUF_LEN` (R21, R48). -/
  fbCanonical : s.fb.wf s.cfg.bufLen = true
  /-- The cursor is within its ranges (R24). -/
  cursor : s.cursorInRange = true
  /-- `CTRL_STATE` is UPDATING exactly during a transfer (R23, R110). -/
  updating : s.ctrl = .updating ↔ s.seq.phase.inTransfer = true
  /-- The sequencer is not IDLE exactly while a command is in progress: busy, with no response yet (R25, R113). -/
  progress : s.seq.phase ≠ .idle ↔ s.busy = true ∧ s.rspValid = false
  /-- A pending response keeps the block busy (R31). -/
  pending : s.rspValid = true → s.busy = true
  /-- No sequence waits in INIT_CLEAR, which emits nothing (R112). -/
  noWaitInClear : s.seq.phase ≠ .initClear
  /-- What is offered to the sink is the transaction at the cursor; nothing is offered while IDLE (R33, R117). -/
  offer : s.txOffer = s.seqTx
  /-- The command in progress is an INIT, or in a transfer an INIT or an UPDATE (R110). -/
  inProgress : s.seq.phase ≠ .idle →
    decodeWord s.cmd = .ok .init ∨ (decodeWord s.cmd = .ok .update ∧ s.seq.phase.inTransfer = true)
  /-- Every transaction accepted by the sink is framed (R70, R116). -/
  txFramed : ∀ t ∈ s.txLog, t.framed s.cfg
  /-- A pending response is framed (R67, R69). -/
  rspPendingFramed : s.rspValid = true → rspFramed s.rsp
  /-- Every response accepted by the host is framed (R67, R69). -/
  rspLogFramed : ∀ e ∈ s.rspLog, rspFramed e.rsp

end Sys2Proof.Machine
end

