-- ==== Sys2Proof/Certificates/Slice0/Obligations.lean ====
section
/-! DEFINITION. The statements for the provers. `t = { s with … }` says at once what a command changes and that it changes
nothing else; every byte of `FB` is spoken of through `State.fbByte`, the model's read of one byte. -/

open Sys2Proof Sys2Proof.Machine

/-! ### Encoding -/

/-- Words written out from the encodings of spec/30_encoding.md R60 and R63 and the vectors of spec/95_test_vectors.md
decode to the commands they stand for, and illegal words are refused with their reason. -/
def Obligations.SpecWordsDecode : Prop :=
  decodeWord 0x00FFFFFFFFFF#48 = .ok .nop ∧
  decodeWord 0x100000000000#48 = .ok .clear ∧
  decodeWord 0x200005000A01#48 = .ok (.setPixel 5 10 1) ∧
  decodeWord 0x300001000800#48 = .ok (.getPixel 1 8) ∧
  decodeWord 0x40007F003F00#48 = .ok (.decode 127 63) ∧
  decodeWord 0x500000123456#48 = .ok (.readByte 0) ∧
  decodeWord 0x600000000000#48 = .ok .init ∧
  decodeWord 0x700000000000#48 = .ok .update ∧
  decodeWord 0x7F0000000000#48 = .error .reservedBits ∧
  decodeWord 0x800000000000#48 = .error .reservedOpcode

/-- R60: the word of every command is OP, RSV, X, Y, C in this layout, RSV zero and an unread field 0 (R64, R73). -/
def Obligations.EncodeFollowsTheWordLayout : Prop :=
  ∀ x y c : Nat, x < 65536 → y < 65536 → c < 256 →
    encode .nop = 0#4 ++ 0#4 ++ 0#16 ++ 0#16 ++ 0#8 ∧
    encode .clear = 1#4 ++ 0#4 ++ 0#16 ++ 0#16 ++ 0#8 ∧
    encode (.setPixel x y c) = 2#4 ++ 0#4 ++ BitVec.ofNat 16 x ++ BitVec.ofNat 16 y ++ BitVec.ofNat 8 c ∧
    encode (.getPixel x y) = 3#4 ++ 0#4 ++ BitVec.ofNat 16 x ++ BitVec.ofNat 16 y ++ 0#8 ∧
    encode (.decode x y) = 4#4 ++ 0#4 ++ BitVec.ofNat 16 x ++ BitVec.ofNat 16 y ++ 0#8 ∧
    encode (.readByte x) = 5#4 ++ 0#4 ++ BitVec.ofNat 16 x ++ 0#16 ++ 0#8 ∧
    encode .init = 6#4 ++ 0#4 ++ 0#16 ++ 0#16 ++ 0#8 ∧
    encode .update = 7#4 ++ 0#4 ++ 0#16 ++ 0#16 ++ 0#8

/-- Decode and encode agree: decoding the word of a well-formed command gives it back, every operand at every value its
field admits (R60, R63, R74). -/
def Obligations.DecodeOfEncodeIsTheCommand : Prop :=
  ∀ i : Instr, i.wf = true → decodeWord (encode i) = .ok i

/-- The other direction: a decoded command is well-formed, and its word is the decoded word with the fields it does not
read set to 0 (R62, R64, R73). -/
def Obligations.EncodeOfDecodeKeepsTheReadFields : Prop :=
  ∀ (w : CommandWord) (i : Instr), decodeWord w = .ok i → i.wf = true ∧ encode i = w &&& i.fieldMask

/-- Decoding is in the order of R62: RSV first, then a reserved opcode; every other word is a command with its opcode. -/
def Obligations.DecodingChecksRsvThenOpcode : Prop :=
  ∀ w : CommandWord,
    (rsvField w ≠ 0 → decodeWord w = .error .reservedBits) ∧
    (rsvField w = 0 → 8 ≤ opField w → decodeWord w = .error .reservedOpcode) ∧
    (rsvField w = 0 → opField w < 8 → ∃ i, decodeWord w = .ok i ∧ i.opcode = opField w)

/-- R63: a word is the command of a row of the opcode table exactly when it matches the row's pattern under the mask
`0xFF0000000000`, and no word matches two rows. -/
def Obligations.OpcodeTableRowsDecideTheCommand : Prop :=
  (∀ r ∈ opcodeTable, r.mask = 0xFF0000000000#48) ∧
  (∀ i : Instr, ∃ r ∈ opcodeTable, r.mnemonic = i.mnemonic ∧ r.pattern.toNat = i.opcode <<< 44) ∧
  (∀ (w : CommandWord) (r : OpcodeRow), r ∈ opcodeTable →
    (r.holds w = true ↔ ∃ i, decodeWord w = .ok i ∧ i.mnemonic = r.mnemonic)) ∧
  (∀ (w : CommandWord) (r q : OpcodeRow), r ∈ opcodeTable → q ∈ opcodeTable → r.holds w = true → q.holds w = true → r = q)

/-- R67: the fields of a response word are the parts it was formed of, and bits 26:24 are 000. -/
def Obligations.ResponseWordHasItsFields : Prop :=
  ∀ (st : Status) (inr : Bool) (idx : Nat) (data : Byte), idx < 65536 →
    rspStatus (rspWord st inr idx data) = statusCode st ∧ rspInr (rspWord st inr idx data) = inr ∧
    rspReserved (rspWord st inr idx data) = 0#3 ∧ rspIdx (rspWord st inr idx data) = idx ∧
    rspData (rspWord st inr idx data) = data

/-! ### The step -/

/-- A step runs the decoded command: a legal block that is not busy and not held in reset accepts the first word on its
command port, latches it, and runs the command it decodes to. `s.takeEvent` is the state after the outside's next event. -/
def Obligations.StepRunsTheDecodedCommand : Prop :=
  ∀ (s : State) (w : CommandWord) (rest : List CommandWord) (i : Instr),
    s.cfg.legal = true → s.busy = false → s.takeEvent.ports.rst = false → s.takeEvent.ports.cmdIn = w :: rest →
    decodeWord w = .ok i →
    step s = exec i { s.takeEvent with busy := true, cmd := w, ports := { s.takeEvent.ports with cmdIn := rest } }

/-- A word placed for the next step is accepted and run by it, whatever the block and the outside were about to do. -/
def Obligations.PlacedWordIsRunByTheNextStep : Prop :=
  ∀ (s : State) (w : CommandWord) (i : Instr), s.cfg.legal = true → decodeWord w = .ok i →
    step (s.withFetchWord 48 w.toNat) =
      exec i { s with busy := true, rspValid := false, cmd := w, ports := { s.ports with rst := false } }

/-- R161: a word with RSV not zero, or with an opcode of 0x8..0xF, is answered `0x10000000`; the command is latched, and
nothing else changes. -/
def Obligations.IllegalWordIsAnsweredErrIllegal : Prop :=
  ∀ (s : State) (w : CommandWord) (rest : List CommandWord),
    s.cfg.legal = true → s.busy = false → s.takeEvent.ports.rst = false → s.takeEvent.ports.cmdIn = w :: rest →
    (rsvField w ≠ 0 ∨ 8 ≤ opField w) →
    step s = .next { s.takeEvent with
      busy := true, cmd := w, ports := { s.takeEvent.ports with cmdIn := rest }
      rsp := 0x10000000#32, rspValid := true }

/-- R7: a configuration is legal exactly under its three conditions, and an illegal one is refused: no command and no step
of it has a meaning. Where the refusal stands, in every command and every step, is the model's choice (log entry 16). -/
def Obligations.IllegalConfigurationIsRefused : Prop :=
  (∀ c : Config, c.legal = true ↔
    (1 ≤ c.width ∧ c.width ≤ 256) ∧ c.height % 8 = 0 ∧ (1 ≤ c.height / 8 ∧ c.height / 8 ≤ 8)) ∧
  ∀ (i : Instr) (s : State), s.cfg.legal = false →
    exec i s = .refused .illegalConfiguration ∧ step s = .refused .illegalConfiguration

/-- A pending response is delivered to a ready host with its command word, and only then is the block free; until then it
holds the response and does nothing (R25, R31, R32). -/
def Obligations.ResponseIsHeldUntilTheHostAcceptsIt : Prop :=
  ∀ s : State, s.cfg.legal = true → s.busy = true → s.rspValid = true → s.takeEvent.ports.rst = false →
    (s.takeEvent.ports.rspReady = true →
      step s = .next { s.takeEvent with busy := false, rspValid := false, rspLog := s.rspLog ++ [⟨s.cmd, s.rsp⟩] }) ∧
    (s.takeEvent.ports.rspReady = false → step s = .next s.takeEvent)

/-- A busy block accepts no command (R25, R51): a step that is no reset leaves the latch and the words on the command port
alone, and a block that stays busy records no response. -/
def Obligations.BusyBlockAcceptsNoCommand : Prop :=
  ∀ s t : State, s.busy = true → s.takeEvent.ports.rst = false → step s = .next t →
    t.cmd = s.cmd ∧ t.ports.cmdIn = s.takeEvent.ports.cmdIn ∧ (t.busy = true → t.rspLog = s.rspLog)

/-- A block that is not busy and has no word to accept does nothing on its own (R182). -/
def Obligations.FreeBlockDoesNothingOnItsOwn : Prop :=
  ∀ s : State, s.cfg.legal = true → s.busy = false → s.takeEvent.ports.rst = false → s.takeEvent.ports.cmdIn = [] →
    step s = .next s.takeEvent

/-- A sequence waits as long as the sink does not accept, without a timeout: the step changes nothing (R117). -/
def Obligations.SequenceWaitsForTheSink : Prop :=
  ∀ s : State, s.Inv → s.seq.phase ≠ .idle → s.takeEvent.ports.rst = false → s.takeEvent.ports.txRoom = some 0 →
    step s = .next s.takeEvent

/-! ### Reset -/

/-- R33: while `rst` is asserted a step takes reset: every component has its reset value, the unspecified cursor stays in
its ranges, and the histories are unchanged. Nothing is said of the unspecified values. That they
are within the ranges after reset is the model's choice (log entries 3, 4), and so is that the inputs stay as the outside
drives them (log entry 5). -/
def Obligations.ResetTakesTheResetValues : Prop :=
  ∀ s : State, s.cfg.legal = true → s.takeEvent.ports.rst = true →
    ∃ t, step s = .next t ∧ t.ctrl = .uninit ∧ t.seq.phase = .idle ∧ t.busy = false ∧ t.rspValid = false ∧
      t.txOffer = none ∧ t.txLog = s.txLog ∧ t.rspLog = s.rspLog ∧ t.cfg = s.cfg ∧ t.ports = s.takeEvent.ports ∧
      t.cursorInRange = true

/-- After a reset every byte of `FB` is a draw of that reset, whatever it held before (the model's form of 'arbitrary value',
log entry 1); the statement holds for every value of the draws. -/
def Obligations.ResetRedrawsTheFramebuffer : Prop :=
  ∀ s : State, s.cfg.legal = true → s.takeEvent.ports.rst = true →
    ∃ t, step s = .next t ∧ t.resets = s.resets + 1 ∧ ∀ i, t.fbByte i = Config.fbDraw t.resets i

/-- Reset is the only way back to UNINIT (R110, R180). -/
def Obligations.OnlyResetReturnsToUninit : Prop :=
  ∀ s t : State, step s = .next t → t.ctrl = .uninit → s.ctrl = .uninit ∨ s.takeEvent.ports.rst = true

/-! ### The pixel controller -/

/-- R90: NOP responds OK and does nothing else; every word with OP 0 and RSV 0 is a NOP, and with RSV not 0 is illegal. -/
def Obligations.NopOnlyResponds : Prop :=
  (∀ w : CommandWord, opField w = 0 →
    decodeWord w = if rsvField w = 0 then .ok .nop else .error .reservedBits) ∧
  ∀ s : State, s.cfg.legal = true → exec .nop s = .next { s with rsp := 0x00000000#32, rspValid := true }

/-- R91: CLEAR sets every byte of `FB` to 0 and responds OK; nothing else changes, and a second CLEAR changes nothing. -/
def Obligations.ClearZeroesTheFramebuffer : Prop :=
  (∀ w : CommandWord, opField w = 1 →
    decodeWord w = if rsvField w = 0 then .ok .clear else .error .reservedBits) ∧
  ∀ s : State, s.cfg.legal = true →
    ∃ t, exec .clear s = .next t ∧ t = { s with fb := t.fb, rsp := 0x00000000#32, rspValid := true } ∧
      (∀ i, i < s.cfg.bufLen → t.fbByte i = 0x00#8) ∧ exec .clear t = .next t

/-- R92: SET_PIXEL in range writes `old | mask` or `old & ~mask` to the byte `x + (y/8)*WIDTH` and responds with it; every
other byte, and everything else, is unchanged; out of range it only responds. -/
def Obligations.SetPixelWritesOneBitOfOneByte : Prop :=
  (∀ w : CommandWord, opField w = 2 →
    decodeWord w = if rsvField w = 0 then .ok (.setPixel (xField w) (yField w) (cField w)) else .error .reservedBits) ∧
  (∀ (s : State) (x y c : Nat), s.cfg.legal = true → x < s.cfg.width → y < s.cfg.height →
    ∃ (t : State) (new : Byte), exec (.setPixel x y c) s = .next t ∧
      new = (if c ≠ 0 then s.fbByte (x + y / 8 * s.cfg.width) ||| 1#8 <<< (y % 8)
             else s.fbByte (x + y / 8 * s.cfg.width) &&& ~~~(1#8 <<< (y % 8))) ∧
      t.fbByte (x + y / 8 * s.cfg.width) = new ∧
      (∀ j, j ≠ x + y / 8 * s.cfg.width → t.fbByte j = s.fbByte j) ∧
      t = { s with fb := t.fb, rsp := rspWord .ok true (x + y / 8 * s.cfg.width) new, rspValid := true }) ∧
  ∀ (s : State) (x y c : Nat), s.cfg.legal = true → ¬(x < s.cfg.width ∧ y < s.cfg.height) →
    exec (.setPixel x y c) s = .next { s with rsp := 0x00000000#32, rspValid := true }

/-- R93: GET_PIXEL responds with the pixel's bit as 0x00 or 0x01 and changes nothing else. -/
def Obligations.GetPixelReadsOneBit : Prop :=
  (∀ w : CommandWord, opField w = 3 →
    decodeWord w = if rsvField w = 0 then .ok (.getPixel (xField w) (yField w)) else .error .reservedBits) ∧
  (∀ (s : State) (x y : Nat), s.cfg.legal = true → x < s.cfg.width → y < s.cfg.height →
    exec (.getPixel x y) s = .next { s with
      rsp := rspWord .ok true (x + y / 8 * s.cfg.width)
        (if (s.fbByte (x + y / 8 * s.cfg.width)).getLsbD (y % 8) then 0x01#8 else 0x00#8)
      rspValid := true }) ∧
  ∀ (s : State) (x y : Nat), s.cfg.legal = true → ¬(x < s.cfg.width ∧ y < s.cfg.height) →
    exec (.getPixel x y) s = .next { s with rsp := 0x00000000#32, rspValid := true }

/-- R94: READ_BYTE responds with the byte of a mapped index and with ERR_RANGE (`0x30000000`, R163) for an unmapped one; it
changes nothing else. -/
def Obligations.ReadByteReturnsTheByteOrErrRange : Prop :=
  (∀ w : CommandWord, opField w = 5 →
    decodeWord w = if rsvField w = 0 then .ok (.readByte (xField w)) else .error .reservedBits) ∧
  ∀ (s : State) (index : Nat), s.cfg.legal = true →
    (index < s.cfg.width * (s.cfg.height / 8) →
      exec (.readByte index) s =
        .next { s with rsp := rspWord .ok true index (s.fbByte index), rspValid := true }) ∧
    (s.cfg.width * (s.cfg.height / 8) ≤ index →
      exec (.readByte index) s = .next { s with rsp := 0x30000000#32, rspValid := true })

/-- R164: an out-of-range coordinate is answered OK with INR 0 by the three commands that take one, and nothing changes. -/
def Obligations.GeometryErrorsAreSilent : Prop :=
  ∀ (s : State) (x y c : Nat), s.cfg.legal = true → (s.cfg.width ≤ x ∨ s.cfg.height ≤ y) →
    exec (.setPixel x y c) s = .next { s with rsp := 0x00000000#32, rspValid := true } ∧
    exec (.getPixel x y) s = .next { s with rsp := 0x00000000#32, rspValid := true } ∧
    exec (.decode x y) s = .next { s with rsp := 0x00000000#32, rspValid := true }

/-- SET_PIXEL gives its pixel the colour class and keeps the colour of every other in-range pixel (R22, R92). -/
def Obligations.SetPixelKeepsEveryOtherPixel : Prop :=
  ∀ (s : State) (x y c : Nat), s.cfg.legal = true → x < s.cfg.width → y < s.cfg.height →
    ∃ t, exec (.setPixel x y c) s = .next t ∧ t.pixel x y = (c != 0) ∧
      ∀ x' y', x' < s.cfg.width → y' < s.cfg.height → (x', y') ≠ (x, y) → t.pixel x' y' = s.pixel x' y'

/-- Law 1 of R95: setting and then clearing a pixel keeps every other bit of its byte, leaves its bit 0, and leaves every
other byte alone. -/
def Obligations.SetThenClearKeepsTheOtherBits : Prop :=
  ∀ (s : State) (x y : Nat), s.cfg.legal = true → x < s.cfg.width → y < s.cfg.height →
    ∃ t, execStream [.setPixel x y 1, .setPixel x y 0] s = .next t ∧
      t.fbByte (x + y / 8 * s.cfg.width) = s.fbByte (x + y / 8 * s.cfg.width) &&& ~~~(1#8 <<< (y % 8)) ∧
      ∀ j, j ≠ x + y / 8 * s.cfg.width → t.fbByte j = s.fbByte j

/-- Law 4 of R95: setting every in-range pixel, in any order and whatever `FB` held, makes every byte 0xFF. -/
def Obligations.SettingEveryPixelFillsTheFramebuffer : Prop :=
  ∀ (s : State) (ps : List (Nat × Nat)), s.cfg.legal = true →
    (∀ x y, x < s.cfg.width → y < s.cfg.height → (x, y) ∈ ps) →
    ∃ t, execStream (ps.map fun p => .setPixel p.1 p.2 1) s = .next t ∧ ∀ i, i < s.cfg.bufLen → t.fbByte i = 0xFF#8

/-- Law 5 of R95: GET_PIXEL after SET_PIXEL returns the colour class. -/
def Obligations.SetThenGetReturnsTheColour : Prop :=
  ∀ (s : State) (x y c : Nat), s.cfg.legal = true → x < s.cfg.width → y < s.cfg.height →
    ∃ t, execStream [.setPixel x y c, .getPixel x y] s = .next t ∧
      t.rsp = rspWord .ok true (x + y / 8 * s.cfg.width) (if c ≠ 0 then 0x01#8 else 0x00#8)

/-! ### The address decoder -/

/-- R83: DECODE responds with the decoder's output and changes nothing else. -/
def Obligations.DecodeRespondsTheDecoderOutput : Prop :=
  (∀ w : CommandWord, opField w = 4 →
    decodeWord w = if rsvField w = 0 then .ok (.decode (xField w) (yField w)) else .error .reservedBits) ∧
  ∀ (s : State) (x y : Nat), s.cfg.legal = true →
    exec (.decode x y) s = .next { s with
      rsp := (if x < s.cfg.width ∧ y < s.cfg.height then rspWord .ok true (x + y / 8 * s.cfg.width) (1#8 <<< (y % 8))
              else 0x00000000#32)
      rspValid := true }

/-- R81: the five laws of the decoder for a legal configuration. -/
def Obligations.AddressDecoderLaws : Prop :=
  ∀ c : Config, c.legal = true →
    (∀ x y, (addrDecode c x y).inr = true →
      (addrDecode c x y).idx < c.bufLen ∧ ∃ b, b < 8 ∧ (addrDecode c x y).mask = 1#8 <<< b) ∧
    (∀ x y, (addrDecode c x y).inr = true ↔ x < c.width ∧ y < c.height) ∧
    (∀ x y x' y', (addrDecode c x y).inr = true → addrDecode c x y = addrDecode c x' y' → x = x' ∧ y = y') ∧
    (∀ idx b, idx < c.bufLen → b < 8 → ∃ x y, addrDecode c x y = ⟨true, idx, 1#8 <<< b⟩) ∧
    (c.bufLen ≤ 2048 ∧ addrDecode c (c.width - 1) (c.height - 1) = ⟨true, c.bufLen - 1, 0x80#8⟩) ∧
    (∀ x p b, x < c.width → p < c.pageCount → b < 8 → addrDecode c x (8 * p + b) = ⟨true, x + p * c.width, 1#8 <<< b⟩)

/-- R82: the inverse of the decoder. -/
def Obligations.AddressDecoderInverse : Prop :=
  ∀ (c : Config) (idx b : Nat), c.legal = true → idx < c.bufLen → b < 8 →
    addrDecode c (idx % c.width) (idx / c.width * 8 + b) = ⟨true, idx, 1#8 <<< b⟩

/-- R84: for one coordinate SET_PIXEL, GET_PIXEL and DECODE see the same `inr`, the same index and the same mask: SET_PIXEL
sets the bits of the mask that DECODE responds, and GET_PIXEL reads them. -/
def Obligations.OneDecoderForThreeCommands : Prop :=
  ∀ (s : State) (x y : Nat), s.cfg.legal = true →
    ∃ t u v, exec (.decode x y) s = .next t ∧ exec (.setPixel x y 1) s = .next u ∧ exec (.getPixel x y) s = .next v ∧
      rspInr u.rsp = rspInr t.rsp ∧ rspIdx u.rsp = rspIdx t.rsp ∧
      rspInr v.rsp = rspInr t.rsp ∧ rspIdx v.rsp = rspIdx t.rsp ∧
      (rspInr t.rsp = true →
        rspData u.rsp = s.fbByte (rspIdx t.rsp) ||| rspData t.rsp ∧
        (rspData v.rsp = 0x01#8 ↔ s.fbByte (rspIdx t.rsp) &&& rspData t.rsp ≠ 0#8))

/-! ### The sequencer -/

/-- R111: the initialisation table is these 23 bytes in this order, and with the defaults these values. The default bytes of
the opcodes and of the clock divider parameter are general knowledge (R71; log entry 6, PRESUMED). -/
def Obligations.InitTableIsTheSpecsTable : Prop :=
  (∀ c : Config, initTable c =
    [c.opDisplayOff, c.opClockDiv, c.clkdivParam, c.opMultiplex, c.muxParam, c.opDisplayOffset, c.offsetParam,
     c.opStartLine, c.opChargePump, c.pumpParam, c.opMemoryMode, c.memmodeParam, c.opSegRemap ||| 0x1#8,
     c.opComScanDec, c.opComPins, c.compinsParam, c.opContrast, c.contrastParam, c.opPrecharge, c.prechargeParam,
     c.opVcomDeselect, c.vcomParam, c.opDisplayOn]) ∧
  initTable Config.default =
    [0xAE#8, 0xD5#8, 0x80#8, 0xA8#8, 0x3F#8, 0xD3#8, 0x00#8, 0x40#8, 0x8D#8, 0x14#8, 0x20#8, 0x00#8, 0xA1#8, 0xC8#8,
     0xDA#8, 0x12#8, 0x81#8, 0xCF#8, 0xD9#8, 0xF1#8, 0xDB#8, 0x40#8, 0xAF#8]

/-- R112: INIT, when the sink accepts its `23 + T` transactions, emits the table and then one transfer of zero bytes, clears
`FB`, ends READY and IDLE with the cursor's counters at their last values, and responds OK; everything else is unchanged,
but for the room of the sink, an input of the model's own (log entry 5). -/
def Obligations.InitEmitsTheTableThenATransferOfZeros : Prop :=
  (∀ w : CommandWord, opField w = 6 →
    decodeWord w = if rsvField w = 0 then .ok .init else .error .reservedBits) ∧
  ∀ s : State, s.cfg.legal = true → s.roomFor (23 + s.cfg.transferLen) = true →
    ∃ t, exec .init s = .next t ∧
      (∀ i, i < s.cfg.bufLen → t.fbByte i = 0x00#8) ∧
      t.seq.phase = .idle ∧ t.seq.initK = 22 ∧ t.seq.pageCur = s.cfg.pageCount - 1 ∧ t.seq.colCur = s.cfg.width - 1 ∧
      t = { s with
        fb := t.fb
        ctrl := .ready
        seq := t.seq
        txOffer := none
        txLog := s.txLog ++ (initTable s.cfg).map (fun b => ⟨s.cfg.devAddr, 0x00#8, b⟩) ++
          [s.cfg.opPageAddr, 0x00#8, s.cfg.pageEndByte, s.cfg.opColumnAddr, 0x00#8, BitVec.ofNat 8 (s.cfg.width - 1)].map
            (fun b => ⟨s.cfg.devAddr, 0x00#8, b⟩) ++
          (List.range s.cfg.pageCount).flatMap fun p =>
            ⟨s.cfg.devAddr, 0x00#8, 0xB0#8 ||| BitVec.ofNat 8 p⟩ ::
              List.replicate s.cfg.width ⟨s.cfg.devAddr, 0x40#8, 0x00#8⟩
        ports := { s.ports with txRoom := s.roomAfter (23 + s.cfg.transferLen) }
        rsp := 0x00000000#32
        rspValid := true }

/-- R113: UPDATE after INIT, when the sink accepts its `T` transactions, sends the window, and for each page its select and
the page's bytes in column order; it ends READY and IDLE with the cursor's counters at their last values and responds OK,
and everything else is unchanged, `FB` with it, but for the room of the sink, an input of the model's own (log entry 5). In
UNINIT it is ERR_STATE and emits nothing. -/
def Obligations.UpdateSendsTheWholeFramebuffer : Prop :=
  (∀ w : CommandWord, opField w = 7 →
    decodeWord w = if rsvField w = 0 then .ok .update else .error .reservedBits) ∧
  (∀ s : State, s.cfg.legal = true → s.ctrl ≠ .uninit → s.roomFor s.cfg.transferLen = true →
    ∃ t, exec .update s = .next t ∧
      t.seq.phase = .idle ∧ t.seq.initK = s.seq.initK ∧ t.seq.pageCur = s.cfg.pageCount - 1 ∧
      t.seq.colCur = s.cfg.width - 1 ∧
      t = { s with
        ctrl := .ready
        seq := t.seq
        txOffer := none
        txLog := s.txLog ++
          [s.cfg.opPageAddr, 0x00#8, s.cfg.pageEndByte, s.cfg.opColumnAddr, 0x00#8, BitVec.ofNat 8 (s.cfg.width - 1)].map
            (fun b => ⟨s.cfg.devAddr, 0x00#8, b⟩) ++
          (List.range s.cfg.pageCount).flatMap fun p =>
            ⟨s.cfg.devAddr, 0x00#8, 0xB0#8 ||| BitVec.ofNat 8 p⟩ ::
              (List.range s.cfg.width).map fun col => ⟨s.cfg.devAddr, 0x40#8, s.fbByte (col + p * s.cfg.width)⟩
        ports := { s.ports with txRoom := s.roomAfter s.cfg.transferLen }
        rsp := 0x00000000#32
        rspValid := true }) ∧
  ∀ s : State, s.cfg.legal = true → s.ctrl = .uninit →
    exec .update s = .next { s with rsp := 0x20000000#32, rspValid := true }

/-- R162: UPDATE in UNINIT is answered `0x20000000`, emits nothing and stays UNINIT; no other word is ever answered
ERR_STATE. -/
def Obligations.ErrStateIsUpdateBeforeInit : Prop :=
  (∀ s : State, s.cfg.legal = true → s.ctrl = .uninit →
    exec .update s = .next { s with rsp := 0x20000000#32, rspValid := true }) ∧
  ∀ (w : CommandWord) (s t : State), s.rspValid = false → runWord w s = .next t → t.rspValid = true →
    rspStatus t.rsp = 2#4 → decodeWord w = .ok .update ∧ s.ctrl = .uninit

/-- R163: READ_BYTE of an unmapped index is answered `0x30000000`; no other word is ever answered ERR_RANGE. -/
def Obligations.ErrRangeIsReadByteOfAnUnmappedIndex : Prop :=
  (∀ (s : State) (index : Nat), s.cfg.legal = true → s.cfg.bufLen ≤ index →
    exec (.readByte index) s = .next { s with rsp := 0x30000000#32, rspValid := true }) ∧
  ∀ (w : CommandWord) (s t : State), s.rspValid = false → runWord w s = .next t → t.rspValid = true →
    rspStatus t.rsp = 3#4 → ∃ index, decodeWord w = .ok (.readByte index) ∧ s.cfg.bufLen ≤ index

/-- R115: how many transactions UPDATE and INIT emit, and where in a transfer each page select and each data byte stands. -/
def Obligations.TransactionCountsAndPositions : Prop :=
  (∀ s : State, s.cfg.legal = true → s.ctrl ≠ .uninit → s.roomFor s.cfg.transferLen = true →
    ∃ t, exec .update s = .next t ∧
      t.txLog.length = s.txLog.length + (6 + s.cfg.pageCount * (1 + s.cfg.width)) ∧
      ∀ p, p < s.cfg.pageCount →
        t.txLog[s.txLog.length + (6 + p * (1 + s.cfg.width))]? =
          some ⟨s.cfg.devAddr, 0x00#8, 0xB0#8 ||| BitVec.ofNat 8 p⟩ ∧
        ∀ col, col < s.cfg.width →
          t.txLog[s.txLog.length + (6 + p * (1 + s.cfg.width) + 1 + col)]? =
            some ⟨s.cfg.devAddr, 0x40#8, s.fbByte (col + p * s.cfg.width)⟩) ∧
  (∀ s : State, s.cfg.legal = true → s.roomFor (23 + s.cfg.transferLen) = true →
    ∃ t, exec .init s = .next t ∧
      t.txLog.length = s.txLog.length + (23 + (6 + s.cfg.pageCount * (1 + s.cfg.width)))) ∧
  Config.default.transferLen = 1038

/-- A sequence whose sink accepts only `n` of its transactions has emitted the first `n` of them in order, offers the next
one, and is not answered: the command stays in progress (R117, R119). -/
def Obligations.StalledSequenceHasEmittedAPrefix : Prop :=
  ∀ (s : State) (n : Nat), s.cfg.legal = true → s.ports.txRoom = some n →
    (n < 23 + s.cfg.transferLen →
      ∃ t, exec .init s = .next t ∧ t.txLog = s.txLog ++ (initSequenceTxs s).take n ∧
        t.txOffer = (initSequenceTxs s)[n]? ∧ seqRest t = (initSequenceTxs s).drop n ∧
        t.seq.phase ≠ .idle ∧ t.rsp = s.rsp ∧ t.rspValid = s.rspValid ∧ t.rspLog = s.rspLog) ∧
    (s.ctrl ≠ .uninit → n < s.cfg.transferLen →
      ∃ t, exec .update s = .next t ∧ t.txLog = s.txLog ++ (transferTxs s).take n ∧
        t.txOffer = (transferTxs s)[n]? ∧ seqRest t = (transferTxs s).drop n ∧
        t.ctrl = .updating ∧ t.seq.phase.inTransfer = true ∧ (∀ i, t.fbByte i = s.fbByte i) ∧
        t.rsp = s.rsp ∧ t.rspValid = s.rspValid ∧ t.rspLog = s.rspLog)

/-- A waiting sequence goes on where it stopped: across a step that takes no reset, what was emitted and what is still to
come are together the same, and once nothing is to come the command is answered OK in READY (R51, R52, R118). -/
def Obligations.ResumedSequenceGoesOnWhereItStopped : Prop :=
  ∀ s t : State, s.Inv → s.seq.phase ≠ .idle → s.takeEvent.ports.rst = false → step s = .next t →
    t.txLog ++ seqRest t = s.txLog ++ seqRest s ∧ s.txLog <+: t.txLog ∧
    (t.seq.phase = .idle → t.ctrl = .ready ∧ t.rsp = 0x00000000#32 ∧ t.rspValid = true) ∧
    (t.seq.phase ≠ .idle → t.rspValid = false ∧ t.txOffer = (seqRest t).head?)

/-- R181: reset during a command aborts it: the accepted transactions, a prefix of its sequence, stay in TXLOG; the offered
one is withdrawn and never logged; the command gets no response; and an UPDATE is then ERR_STATE (spec/95_test_vectors.md
P5). -/
def Obligations.ResetCutsASequenceShort : Prop :=
  ∀ (s : State) (n : Nat) (i : Instr) (txs : List Transaction), s.cfg.legal = true → s.ports.txRoom = some n →
    ((i = .init ∧ txs = initSequenceTxs s) ∨ (i = .update ∧ s.ctrl ≠ .uninit ∧ txs = transferTxs s)) → n < txs.length →
    ∃ t u, exec i s = .next t ∧
      step { t with ports := { t.ports with rst := true, script := [] } } = .next u ∧
      u.txLog = s.txLog ++ txs.take n ∧ u.rspLog = s.rspLog ∧ u.txOffer = none ∧ u.rspValid = false ∧ u.busy = false ∧
      u.ctrl = .uninit ∧ u.seq.phase = .idle ∧
      exec .update u = .next { u with rsp := 0x20000000#32, rspValid := true }

/-- Two UPDATEs with no write between them emit identical sequences (R113). -/
def Obligations.UpdateTwiceSendsTheSame : Prop :=
  ∀ s : State, s.cfg.legal = true → s.ctrl ≠ .uninit → s.ports.txRoom = none →
    ∃ t u txs, exec .update s = .next t ∧ exec .update t = .next u ∧ t.txLog = s.txLog ++ txs ∧ u.txLog = t.txLog ++ txs

/-! ### Whole-machine rules -/

/-- R165: a word answered with an error, legal or not, has changed nothing but its response, whose other fields are 0. -/
def Obligations.ErrorsArePrecise : Prop :=
  ∀ (w : CommandWord) (s t : State), s.rspValid = false → runWord w s = .next t → t.rspValid = true →
    rspStatus t.rsp ≠ 0#4 →
    t = { s with rsp := t.rsp, rspValid := true } ∧ rspInr t.rsp = false ∧ rspIdx t.rsp = 0 ∧ rspData t.rsp = 0x00#8

/-- Every command other than INIT and UPDATE leaves `CTRL_STATE` and `SEQ` alone, emits nothing, and is answered (R110,
R119). -/
def Obligations.OnlyInitAndUpdateDriveTheSequencer : Prop :=
  ∀ (i : Instr) (s t : State), i ≠ .init → i ≠ .update → exec i s = .next t →
    t.ctrl = s.ctrl ∧ t.seq = s.seq ∧ t.txLog = s.txLog ∧ t.txOffer = s.txOffer ∧ t.ports = s.ports ∧ t.rspValid = true

/-- R41: a command other than CLEAR, SET_PIXEL and INIT leaves every byte of `FB` alone. -/
def Obligations.OnlyClearSetPixelAndInitWriteTheFramebuffer : Prop :=
  ∀ (i : Instr) (s t : State), i ≠ .clear → (∀ x y c, i ≠ .setPixel x y c) → i ≠ .init → exec i s = .next t →
    ∀ j, t.fbByte j = s.fbByte j

/-- Every command leaves alone what no rule lets it write: parameters, latch, BUSY, the response history, the reset draws,
and every input but the room of the sink (R20, R25, R32); and it only appends to TXLOG. -/
def Obligations.CommandsLeaveTheRestAlone : Prop :=
  ∀ (i : Instr) (s t : State), exec i s = .next t →
    t.cfg = s.cfg ∧ t.busy = s.busy ∧ t.cmd = s.cmd ∧ t.rspLog = s.rspLog ∧ t.resets = s.resets ∧
    t.ports = { s.ports with txRoom := t.ports.txRoom } ∧ s.txLog <+: t.txLog

/-- No command stops a legal block: it always goes on (R160, R168). -/
def Obligations.NoCommandStopsALegalBlock : Prop :=
  ∀ (i : Instr) (s : State), s.cfg.legal = true → ∃ t, exec i s = .next t

/-- The histories are never cleared, not even by reset, and the parameters never change (R20, R32). -/
def Obligations.HistoriesOnlyGrow : Prop :=
  ∀ s t : State, step s = .next t → s.txLog <+: t.txLog ∧ s.rspLog <+: t.rspLog ∧ t.cfg = s.cfg

/-- The invariant holds after reset. -/
def Obligations.ResetMeetsTheInvariant : Prop := State.reset.Inv

/-- Every step keeps the invariant: the written bytes stay canonical and mapped, the cursor in its ranges, UPDATING exactly
in a transfer, one command at a time, one framed transaction per byte, framed responses. -/
def Obligations.EveryStepKeepsTheInvariant : Prop :=
  ∀ s t : State, s.Inv → step s = .next t → t.Inv

/-- From a state with the invariant the machine never stops: no fault and no refusal (R160). -/
def Obligations.TheBlockNeverStops : Prop :=
  ∀ s : State, s.Inv → ∃ t, step s = .next t

/-! ### The host's streams -/

/-- `draw_bitmap` with colour on: an in-range pixel is on afterwards exactly when it was on or a source bit of 1, the most
significant bit leftmost, falls on it (R141); and the two laws of R142: it clears no bit, and drawing twice leaves `FB` as
drawing once. -/
def Obligations.DrawBitmapOnlySetsAndIsIdempotent : Prop :=
  ∀ (s : State) (x y w h : Nat) (bitmap : List Byte) (cmds : List Instr), s.cfg.legal = true →
    drawBitmap x y bitmap w h true = .ok cmds →
    ∃ t u, execStream cmds s = .next t ∧ execStream cmds t = .next u ∧
      (∀ px py, px < s.cfg.width → py < s.cfg.height →
        (t.pixel px py = true ↔ s.pixel px py = true ∨ ∃ row col, row < h ∧ col < w ∧ px = x + col ∧ py = y + row ∧
          (bitmap.getD (row * ((w + 7) / 8) + col / 8) 0x00#8).getLsbD (7 - col % 8) = true)) ∧
      (∀ i b, b < 8 → (s.fbByte i).getLsbD b = true → (t.fbByte i).getLsbD b = true) ∧
      ∀ i, u.fbByte i = t.fbByte i

/-- A glyph overwrites its whole 5 x 7 cell where the cell is in range, and no pixel outside it (R143). -/
def Obligations.DrawGlyphOverwritesItsCell : Prop :=
  ∀ (s : State) (g : Fin 5 → Byte) (cx cy : Nat), s.cfg.legal = true →
    ∃ t, execStream (drawGlyph g cx cy) s = .next t ∧
      ∀ x y, x < s.cfg.width → y < s.cfg.height →
        (∀ (col : Fin 5) (j : Nat), j < 7 → x = cx + col.val → y = cy + j → t.pixel x y = (g col).getLsbD j) ∧
        ((x < cx ∨ cx + 5 ≤ x ∨ y < cy ∨ cy + 7 ≤ y) → t.pixel x y = s.pixel x y)

/-- `draw_string` with an illegal `WRAP_WIDTH` is refused (R6; log entry 13). With a legal one it draws its glyphs from
`(px, py)` on: a glyph whose last column would be at or beyond `WRAP_WIDTH` goes to a new line first, 8 pixels down and at
column 0 or at `px`, any other stays where it is, and the next cursor is 6 pixels to the right (R143, R144). -/
def Obligations.StringWrapsBeforeAGlyph : Prop :=
  (∀ (hp : HostParams) (font : Byte → Fin 5 → Byte) (px py : Nat) (text : List Byte),
    (hp.legal = true ↔ 1 ≤ hp.wrapWidth ∧ hp.wrapWidth ≤ 65535) ∧
    (hp.legal = false → drawString hp font px py text = .error .illegalWrapWidth) ∧
    (hp.legal = true → drawString hp font px py text = .ok (drawGlyphs hp font px px py text))) ∧
  (∀ (hp : HostParams) (font : Byte → Fin 5 → Byte) (px cx cy : Nat) (ch : Byte) (rest : List Byte), hp.legal = true →
    (hp.wrapWidth ≤ cx + 4 → hp.wrapReturn = .zero →
      drawGlyphs hp font px cx cy (ch :: rest) =
        drawGlyph (font ch) 0 (cy + 8) ++ drawGlyphs hp font px 6 (cy + 8) rest) ∧
    (hp.wrapWidth ≤ cx + 4 → hp.wrapReturn = .origin →
      drawGlyphs hp font px cx cy (ch :: rest) =
        drawGlyph (font ch) px (cy + 8) ++ drawGlyphs hp font px (px + 6) (cy + 8) rest) ∧
    (cx + 4 < hp.wrapWidth →
      drawGlyphs hp font px cx cy (ch :: rest) = drawGlyph (font ch) cx cy ++ drawGlyphs hp font px (cx + 6) cy rest)) ∧
  HostParams.default.wrapWidth = 128 ∧ HostParams.default.wrapReturn = .zero

/-- Every command of every stream is a SET_PIXEL whose operands fit their fields: the host never wraps a coordinate (R140),
and a circle only sets (R145). -/
def Obligations.StreamsAreEncodableSetPixels : Prop :=
  (∀ x y bitmap w h on cmds, drawBitmap x y bitmap w h on = .ok cmds →
    ∀ i ∈ cmds, i.wf = true ∧ ∃ px py, i = .setPixel px py (if on then 1 else 0)) ∧
  (∀ hp font px py text cmds, drawString hp font px py text = .ok cmds →
    ∀ i ∈ cmds, i.wf = true ∧ ∃ x y c, i = .setPixel x y c) ∧
  (∀ hp pt xc yc r, ∀ i ∈ drawCircle hp pt xc yc r, i.wf = true ∧ ∃ x y, i = .setPixel x y 1)

/-- A bitmap that is too short is refused (U6); an empty rectangle and an empty text issue nothing (R141, R143). -/
def Obligations.ShortBitmapsAreRefusedAndEmptyDrawsIssueNothing : Prop :=
  ∀ (x y w h : Nat) (bitmap : List Byte) (on : Bool),
    (bitmap.length < h * ((w + 7) / 8) → drawBitmap x y bitmap w h on = .error .bitmapTooShort) ∧
    drawBitmap x y bitmap 0 h on = .ok [] ∧ drawBitmap x y bitmap w 0 on = .ok [] ∧
    ∀ hp font, hp.legal = true → drawString hp font x y [] = .ok []
end

