-- ==== Sys2Proof/Laws/Decode.lean ====
section
/-! SUPPORT. The fields of an encoded command word (spec/30_encoding.md R60, R74). -/

namespace Sys2Proof

/-- The encoding as a sum: the fields of R60 do not overlap. -/
theorem enc_toNat {op x y c : Nat} (ho : op < 16) (hx : x < 65536) (hy : y < 65536) (hc : c < 256) :
    (enc op x y c).toNat = op * 2 ^ 44 + x * 2 ^ 24 + y * 2 ^ 8 + c := by
  have h1 : op <<< 44 ||| x <<< 24 = op <<< 44 + x <<< 24 :=
    (Nat.shiftLeft_add_eq_or_of_lt (by rw [Nat.shiftLeft_eq]; omega) op).symm
  have h2 : (op <<< 44 + x <<< 24) ||| y <<< 8 = op <<< 44 + x <<< 24 + y <<< 8 := by
    have e : op <<< 44 + x <<< 24 = (op * 2 ^ 20 + x) <<< 24 := by simp only [Nat.shiftLeft_eq]; omega
    rw [e]; exact (Nat.shiftLeft_add_eq_or_of_lt (by rw [Nat.shiftLeft_eq]; omega) _).symm
  have h3 : (op <<< 44 + x <<< 24 + y <<< 8) ||| c = op <<< 44 + x <<< 24 + y <<< 8 + c := by
    have e : op <<< 44 + x <<< 24 + y <<< 8 = (op * 2 ^ 36 + x * 2 ^ 16 + y) <<< 8 := by
      simp only [Nat.shiftLeft_eq]; omega
    rw [e]; exact (Nat.shiftLeft_add_eq_or_of_lt hc _).symm
  rw [enc, h1, h2, h3, BitVec.toNat_ofNat]
  simp only [Nat.shiftLeft_eq]
  omega

/-- Each field of a word as a quotient and remainder of its number. -/
theorem fields_toNat (w : CommandWord) :
    opField w = w.toNat / 2 ^ 44 % 16 ∧ rsvField w = w.toNat / 2 ^ 40 % 16 ∧ xField w = w.toNat / 2 ^ 24 % 65536 ∧
      yField w = w.toNat / 2 ^ 8 % 65536 ∧ cField w = w.toNat % 256 := by
  simp [opField, rsvField, xField, yField, cField, Nat.shiftRight_eq_div_pow]

/-- Every field of an encoded word is the operand put there, and RSV is 0 (R74). -/
theorem enc_fields {op x y c : Nat} (ho : op < 16) (hx : x < 65536) (hy : y < 65536) (hc : c < 256) :
    opField (enc op x y c) = op ∧ rsvField (enc op x y c) = 0 ∧ xField (enc op x y c) = x ∧
      yField (enc op x y c) = y ∧ cField (enc op x y c) = c := by
  obtain ⟨h1, h2, h3, h4, h5⟩ := fields_toNat (enc op x y c)
  rw [enc_toNat ho hx hy hc] at h1 h2 h3 h4 h5
  refine ⟨h1.trans ?_, h2.trans ?_, h3.trans ?_, h4.trans ?_, h5.trans ?_⟩ <;> omega

/-- Every field is within its width (R61). -/
theorem fields_lt (w : CommandWord) :
    opField w < 16 ∧ rsvField w < 16 ∧ xField w < 65536 ∧ yField w < 65536 ∧ cField w < 256 := by
  obtain ⟨h1, h2, h3, h4, h5⟩ := fields_toNat w
  rw [h1, h2, h3, h4, h5]
  exact ⟨Nat.mod_lt _ (by decide), Nat.mod_lt _ (by decide), Nat.mod_lt _ (by decide), Nat.mod_lt _ (by decide),
    Nat.mod_lt _ (by decide)⟩

/-- A word with RSV 0 decodes as the opcode map says (R62). -/
theorem decodeWord_of_rsv {w : CommandWord} (h : rsvField w = 0) :
    decodeWord w = assignOpcode (opField w) (xField w) (yField w) (cField w) := by
  simp [decodeWord, h]

/-- The encoded word of an opcode and operands within their widths decodes as the opcode map says. -/
theorem decodeWord_enc {op x y c : Nat} (ho : op < 16) (hx : x < 65536) (hy : y < 65536) (hc : c < 256) :
    decodeWord (enc op x y c) = assignOpcode op x y c := by
  obtain ⟨h1, h2, h3, h4, h5⟩ := enc_fields ho hx hy hc
  rw [decodeWord_of_rsv h2, h1, h3, h4, h5]

/-- The assigned command, if there is one, is one of the eight, with its opcode. -/
theorem assignOpcode_ok {op x y c : Nat} {i : Instr} (h : assignOpcode op x y c = .ok i) :
    op < 8 ∧ i.opcode = op := by
  unfold assignOpcode at h
  split at h <;> first | (cases h; exact ⟨by decide, rfl⟩) | cases h

end Sys2Proof
end

