-- ==== Sys2Proof/Laws/Flags.lean ====
section
/-! SUPPORT. The number of a response word (spec/30_encoding.md R67). -/

namespace Sys2Proof.Machine

open Sys2Proof

/-- A response word as a sum: the fields of R67 do not overlap. -/
theorem rspWord_toNat (st : Status) (inr : Bool) (idx : Nat) (data : Byte) :
    (rspWord st inr idx data).toNat =
      (statusCode st).toNat * 2 ^ 28 + inr.toNat * 2 ^ 27 + idx % 65536 * 2 ^ 8 + data.toNat := by
  have hd := data.isLt
  have hi : idx % 65536 < 2 ^ 16 := Nat.mod_lt _ (by decide)
  have hb : inr.toNat < 2 := by cases inr <;> decide
  simp only [rspWord, BitVec.toNat_append, BitVec.toNat_ofNat, BitVec.toNat_ofBool]
  rw [← Nat.shiftLeft_add_eq_or_of_lt hd, ← Nat.shiftLeft_add_eq_or_of_lt hi,
    ← Nat.shiftLeft_add_eq_or_of_lt (by decide), ← Nat.shiftLeft_add_eq_or_of_lt hb]
  simp only [Nat.shiftLeft_eq]
  omega

/-- The fields of a word as quotients and remainders of its number. -/
theorem rspFields_toNat (r : ResponseWord) :
    (rspStatus r).toNat = r.toNat / 2 ^ 28 ∧ (rspInr r).toNat = r.toNat / 2 ^ 27 % 2 ∧
      (rspReserved r).toNat = r.toNat / 2 ^ 24 % 8 ∧ rspIdx r = r.toNat / 2 ^ 8 % 65536 ∧
      (rspData r).toNat = r.toNat % 256 := by
  have hr := r.isLt
  refine ⟨?_, ?_, ?_, ?_, ?_⟩
  · simp only [rspStatus, BitVec.extractLsb'_toNat, Nat.shiftRight_eq_div_pow]; omega
  · rw [rspInr, BitVec.getLsbD, Nat.testBit_eq_decide_div_mod_eq]
    rcases Nat.mod_two_eq_zero_or_one (r.toNat / 2 ^ 27) with h | h <;> rw [h] <;> rfl
  · simp [rspReserved, Nat.shiftRight_eq_div_pow]
  · simp [rspIdx, Nat.shiftRight_eq_div_pow]
  · simp [rspData]

end Sys2Proof.Machine
end

