-- ==== Sys2Proof/Laws/HostStreams.lean ====
section
/-! SUPPORT. The laws of the host's streams: what issuing can do, and running two streams one after the other
(spec/43_host_primitives.md R140). -/

namespace Sys2Proof.Machine

open Sys2Proof

/-- All that issuing a SET_PIXEL can do: the one command, or nothing for a coordinate that no field can hold (R140). -/
theorem issue_cases (x y c : Nat) :
    (x ≤ 65535 ∧ y ≤ 65535 ∧ issue x y c = [.setPixel x y c]) ∨ ((65535 < x ∨ 65535 < y) ∧ issue x y c = []) := by
  by_cases h : x ≤ 65535 ∧ y ≤ 65535
  · exact .inl ⟨h.1, h.2, by simp [issue, h]⟩
  · exact .inr ⟨by omega, by simp only [issue, h, if_false]⟩

/-- What is issued with an 8-bit colour is encodable. -/
theorem issue_wf {x y c : Nat} (hc : c < 256) {i : Instr} (h : i ∈ issue x y c) : i.wf = true ∧ i = .setPixel x y c := by
  rcases issue_cases x y c with ⟨hx, hy, hi⟩ | ⟨-, hi⟩ <;> rw [hi] at h
  · rw [List.mem_singleton.mp h]
    exact ⟨by simp only [Instr.wf, fitsCoord, fitsColour, Bool.and_eq_true, decide_eq_true_eq]; omega, rfl⟩
  · simp at h

/-- All that `draw_string` can do: with a legal `WRAP_WIDTH` the glyphs from its cursor on, otherwise a refusal (R6, R143). -/
theorem drawString_cases (hp : HostParams) (font : Byte → Fin 5 → Byte) (px py : Nat) (text : List Byte) :
    (hp.legal = true ∧ drawString hp font px py text = .ok (drawGlyphs hp font px px py text)) ∨
    (hp.legal = false ∧ drawString hp font px py text = .error .illegalWrapWidth) := by
  unfold drawString
  cases hp.legal <;> simp

/-- The mask of R141 reads the bit of the column: the most significant bit is the leftmost. -/
theorem bitmapMask (b : Byte) (col : Nat) : b &&& (0x80#8 >>> (col % 8)) ≠ 0#8 ↔ b.getLsbD (7 - col % 8) = true := by
  have h : col % 8 < 8 := Nat.mod_lt _ (by decide)
  generalize col % 8 = k at h
  have key : ∀ k < 8, ∀ b : BitVec 8, b &&& (0x80#8 >>> k) ≠ 0#8 ↔ b.getLsbD (7 - k) = true := by decide
  exact key k h b

/-- A stream that goes on is followed by the next one. -/
theorem execStream_append {a : List Instr} {s t : State} (b : List Instr) (h : execStream a s = .next t) :
    execStream (a ++ b) s = execStream b t := by
  induction a generalizing s with
  | nil => cases h; rfl
  | cons i rest ih =>
    simp only [execStream, List.cons_append] at h ⊢
    split at h
    · next u _ => exact ih h
    · cases h
    · cases h

end Sys2Proof.Machine
end

