-- ==== Sys2Proof/Laws/Memory.lean ====
section
/-! SUPPORT. The laws of the written bytes of the framebuffer: read after write, and that every operation keeps the
canonical form (spec/20_memory.md R47, R50). -/

namespace Sys2Proof.Machine

open Sys2Proof

/-- A read after a write of the same index gives the byte written. -/
@[simp] theorem Memory.read_write_same (m : Memory) (a : Nat) (v : Byte) : (m.write a v).read? a = some v := by
  induction m with
  | nil => simp [Memory.write, Memory.read?]
  | cons e rest ih =>
    obtain ⟨k, u⟩ := e
    simp only [Memory.write]
    split
    · next h => simp [Memory.read?, Nat.ne_of_lt h, ih]
    · split <;> simp [Memory.read?]

/-- A write leaves every other index as it was. -/
theorem Memory.read_write_other (m : Memory) {a b : Nat} (v : Byte) (h : b ≠ a) : (m.write a v).read? b = m.read? b := by
  induction m with
  | nil => simp [Memory.write, Memory.read?, Ne.symm h]
  | cons e rest ih =>
    obtain ⟨k, u⟩ := e
    simp only [Memory.write]
    split
    · simp [Memory.read?, ih]
    · split
      · next hk => simp [Memory.read?, hk, Ne.symm h]
      · simp [Memory.read?, Ne.symm h]

theorem Memory.read_map_pair (v : Byte) (l : List Nat) (i : Nat) (h : i ∈ l) :
    Memory.read? (l.map fun j => (j, v)) i = some v := by
  induction l with
  | nil => simp at h
  | cons k rest ih =>
    simp only [List.map_cons, Memory.read?]
    split
    · rfl
    · next hk => exact ih (by simpa [Ne.symm hk] using h)

/-- Every index below `n` of a filled framebuffer reads as the byte. -/
theorem Memory.read_fill {n i : Nat} (v : Byte) (h : i < n) : (Memory.fill n v).read? i = some v :=
  Memory.read_map_pair v _ i (by simpa using h)

/-- A canonical form from a higher start is one from a lower start. -/
theorem Memory.wfFrom_mono {lo lo' n : Nat} {m : Memory} (hl : lo' ≤ lo) (h : m.wfFrom lo n = true) :
    m.wfFrom lo' n = true := by
  cases m with
  | nil => rfl
  | cons e rest =>
    simp only [Memory.wfFrom, Bool.and_eq_true, decide_eq_true_eq] at h ⊢
    exact ⟨⟨by omega, h.1.2⟩, h.2⟩

theorem Memory.wfFrom_write {n a : Nat} (m : Memory) (v : Byte) (ha : a < n) {lo : Nat} (hlo : lo ≤ a)
    (h : m.wfFrom lo n = true) : (m.write a v).wfFrom lo n = true := by
  induction m generalizing lo with
  | nil => simp [Memory.write, Memory.wfFrom, ha, hlo]
  | cons e rest ih =>
    obtain ⟨k, u⟩ := e
    simp only [Memory.wfFrom, Bool.and_eq_true, decide_eq_true_eq] at h
    simp only [Memory.write]
    split
    · next hk =>
      simp only [Memory.wfFrom, Bool.and_eq_true, decide_eq_true_eq]
      exact ⟨h.1, ih hk h.2⟩
    · split
      · next hk =>
        subst hk
        simp [Memory.wfFrom, ha, hlo, h.2]
      · next h1 h2 =>
        simp only [Memory.wfFrom, Bool.and_eq_true, decide_eq_true_eq]
        exact ⟨⟨hlo, ha⟩, ⟨⟨by omega, h.1.2⟩, h.2⟩⟩

/-- Writing below `n` keeps the canonical form. -/
theorem Memory.wf_write {n a : Nat} {m : Memory} (v : Byte) (ha : a < n) (h : m.wf n = true) :
    (m.write a v).wf n = true := Memory.wfFrom_write m v ha (Nat.zero_le a) h

theorem Memory.wfFrom_map_range' (v : Byte) (n : Nat) (lo len : Nat) (h : lo + len ≤ n) :
    Memory.wfFrom lo n ((List.range' lo len).map fun i => (i, v)) = true := by
  induction len generalizing lo with
  | zero => rfl
  | succ len ih =>
    simp only [List.range'_succ, List.map_cons, Memory.wfFrom, Bool.and_eq_true, decide_eq_true_eq]
    exact ⟨⟨Nat.le_refl lo, by omega⟩, ih (lo + 1) (by omega)⟩

/-- A filled framebuffer is in canonical form. -/
theorem Memory.wf_fill (n : Nat) (v : Byte) : (Memory.fill n v).wf n = true := by
  rw [Memory.wf, Memory.fill, List.range_eq_range']
  exact Memory.wfFrom_map_range' v n 0 n (by omega)

/-- Nothing written is in canonical form. -/
@[simp] theorem Memory.wf_nil (n : Nat) : Memory.wf n [] = true := rfl

/-- A canonical form lists no index below its start. -/
theorem Memory.read_below {lo n : Nat} {m : Memory} (h : m.wfFrom lo n = true) {i : Nat} (hi : i < lo) :
    m.read? i = none := by
  induction m generalizing lo with
  | nil => rfl
  | cons e rest ih =>
    obtain ⟨k, u⟩ := e
    simp only [Memory.wfFrom, Bool.and_eq_true, decide_eq_true_eq] at h
    have hk : k ≠ i := by omega
    simp only [Memory.read?, hk, if_false]
    exact ih h.2 (by omega)

end Sys2Proof.Machine
end

