-- ==== Sys2Proof/Laws/State.lean ====
section
/-! SUPPORT. What each named update of the state does to each field, one lemma a field, so that no proof unfolds a record
update. -/

namespace Sys2Proof.Machine

variable (s : State)

/-! ### `State.respond` -/

@[simp] theorem State.respond_cfg (st : Status) (inr : Bool) (idx : Nat) (data : Byte) : (s.respond st inr idx data).cfg = s.cfg := rfl
@[simp] theorem State.respond_fb (st : Status) (inr : Bool) (idx : Nat) (data : Byte) : (s.respond st inr idx data).fb = s.fb := rfl
@[simp] theorem State.respond_ctrl (st : Status) (inr : Bool) (idx : Nat) (data : Byte) : (s.respond st inr idx data).ctrl = s.ctrl := rfl
@[simp] theorem State.respond_seq (st : Status) (inr : Bool) (idx : Nat) (data : Byte) : (s.respond st inr idx data).seq = s.seq := rfl
@[simp] theorem State.respond_busy (st : Status) (inr : Bool) (idx : Nat) (data : Byte) : (s.respond st inr idx data).busy = s.busy := rfl
@[simp] theorem State.respond_cmd (st : Status) (inr : Bool) (idx : Nat) (data : Byte) : (s.respond st inr idx data).cmd = s.cmd := rfl
@[simp] theorem State.respond_rsp (st : Status) (inr : Bool) (idx : Nat) (data : Byte) : (s.respond st inr idx data).rsp = rspWord st inr idx data := rfl
@[simp] theorem State.respond_rspValid (st : Status) (inr : Bool) (idx : Nat) (data : Byte) : (s.respond st inr idx data).rspValid = true := rfl
@[simp] theorem State.respond_txOffer (st : Status) (inr : Bool) (idx : Nat) (data : Byte) : (s.respond st inr idx data).txOffer = s.txOffer := rfl
@[simp] theorem State.respond_txLog (st : Status) (inr : Bool) (idx : Nat) (data : Byte) : (s.respond st inr idx data).txLog = s.txLog := rfl
@[simp] theorem State.respond_rspLog (st : Status) (inr : Bool) (idx : Nat) (data : Byte) : (s.respond st inr idx data).rspLog = s.rspLog := rfl
@[simp] theorem State.respond_resets (st : Status) (inr : Bool) (idx : Nat) (data : Byte) : (s.respond st inr idx data).resets = s.resets := rfl
@[simp] theorem State.respond_ports (st : Status) (inr : Bool) (idx : Nat) (data : Byte) : (s.respond st inr idx data).ports = s.ports := rfl

/-! ### `State.writeFb` -/

@[simp] theorem State.writeFb_cfg (i : Nat) (v : Byte) : (s.writeFb i v).cfg = s.cfg := rfl
@[simp] theorem State.writeFb_fb (i : Nat) (v : Byte) : (s.writeFb i v).fb = s.fb.write i v := rfl
@[simp] theorem State.writeFb_ctrl (i : Nat) (v : Byte) : (s.writeFb i v).ctrl = s.ctrl := rfl
@[simp] theorem State.writeFb_seq (i : Nat) (v : Byte) : (s.writeFb i v).seq = s.seq := rfl
@[simp] theorem State.writeFb_busy (i : Nat) (v : Byte) : (s.writeFb i v).busy = s.busy := rfl
@[simp] theorem State.writeFb_cmd (i : Nat) (v : Byte) : (s.writeFb i v).cmd = s.cmd := rfl
@[simp] theorem State.writeFb_rsp (i : Nat) (v : Byte) : (s.writeFb i v).rsp = s.rsp := rfl
@[simp] theorem State.writeFb_rspValid (i : Nat) (v : Byte) : (s.writeFb i v).rspValid = s.rspValid := rfl
@[simp] theorem State.writeFb_txOffer (i : Nat) (v : Byte) : (s.writeFb i v).txOffer = s.txOffer := rfl
@[simp] theorem State.writeFb_txLog (i : Nat) (v : Byte) : (s.writeFb i v).txLog = s.txLog := rfl
@[simp] theorem State.writeFb_rspLog (i : Nat) (v : Byte) : (s.writeFb i v).rspLog = s.rspLog := rfl
@[simp] theorem State.writeFb_resets (i : Nat) (v : Byte) : (s.writeFb i v).resets = s.resets := rfl
@[simp] theorem State.writeFb_ports (i : Nat) (v : Byte) : (s.writeFb i v).ports = s.ports := rfl

/-! ### `State.clearFb` -/

@[simp] theorem State.clearFb_cfg : s.clearFb.cfg = s.cfg := rfl
@[simp] theorem State.clearFb_fb : s.clearFb.fb = Memory.fill s.cfg.bufLen 0x00#8 := rfl
@[simp] theorem State.clearFb_ctrl : s.clearFb.ctrl = s.ctrl := rfl
@[simp] theorem State.clearFb_seq : s.clearFb.seq = s.seq := rfl
@[simp] theorem State.clearFb_busy : s.clearFb.busy = s.busy := rfl
@[simp] theorem State.clearFb_cmd : s.clearFb.cmd = s.cmd := rfl
@[simp] theorem State.clearFb_rsp : s.clearFb.rsp = s.rsp := rfl
@[simp] theorem State.clearFb_rspValid : s.clearFb.rspValid = s.rspValid := rfl
@[simp] theorem State.clearFb_txOffer : s.clearFb.txOffer = s.txOffer := rfl
@[simp] theorem State.clearFb_txLog : s.clearFb.txLog = s.txLog := rfl
@[simp] theorem State.clearFb_rspLog : s.clearFb.rspLog = s.rspLog := rfl
@[simp] theorem State.clearFb_resets : s.clearFb.resets = s.resets := rfl
@[simp] theorem State.clearFb_ports : s.clearFb.ports = s.ports := rfl

/-! ### `State.acceptTx` -/

@[simp] theorem State.acceptTx_cfg (t : Transaction) : (s.acceptTx t).cfg = s.cfg := rfl
@[simp] theorem State.acceptTx_fb (t : Transaction) : (s.acceptTx t).fb = s.fb := rfl
@[simp] theorem State.acceptTx_ctrl (t : Transaction) : (s.acceptTx t).ctrl = s.ctrl := rfl
@[simp] theorem State.acceptTx_seq (t : Transaction) : (s.acceptTx t).seq = s.seq := rfl
@[simp] theorem State.acceptTx_busy (t : Transaction) : (s.acceptTx t).busy = s.busy := rfl
@[simp] theorem State.acceptTx_cmd (t : Transaction) : (s.acceptTx t).cmd = s.cmd := rfl
@[simp] theorem State.acceptTx_rsp (t : Transaction) : (s.acceptTx t).rsp = s.rsp := rfl
@[simp] theorem State.acceptTx_rspValid (t : Transaction) : (s.acceptTx t).rspValid = s.rspValid := rfl
@[simp] theorem State.acceptTx_txOffer (t : Transaction) : (s.acceptTx t).txOffer = none := rfl
@[simp] theorem State.acceptTx_txLog (t : Transaction) : (s.acceptTx t).txLog = s.txLog ++ [t] := rfl
@[simp] theorem State.acceptTx_rspLog (t : Transaction) : (s.acceptTx t).rspLog = s.rspLog := rfl
@[simp] theorem State.acceptTx_resets (t : Transaction) : (s.acceptTx t).resets = s.resets := rfl
@[simp] theorem State.acceptTx_ports (t : Transaction) : (s.acceptTx t).ports = { s.ports with txRoom := s.ports.txRoom.map (· - 1) } := rfl

/-! ### `State.goTo` -/

@[simp] theorem State.goTo_cfg (c : CtrlState) (q : Seq) : (s.goTo c q).cfg = s.cfg := rfl
@[simp] theorem State.goTo_fb (c : CtrlState) (q : Seq) : (s.goTo c q).fb = s.fb := rfl
@[simp] theorem State.goTo_ctrl (c : CtrlState) (q : Seq) : (s.goTo c q).ctrl = c := rfl
@[simp] theorem State.goTo_seq (c : CtrlState) (q : Seq) : (s.goTo c q).seq = q := rfl
@[simp] theorem State.goTo_busy (c : CtrlState) (q : Seq) : (s.goTo c q).busy = s.busy := rfl
@[simp] theorem State.goTo_cmd (c : CtrlState) (q : Seq) : (s.goTo c q).cmd = s.cmd := rfl
@[simp] theorem State.goTo_rsp (c : CtrlState) (q : Seq) : (s.goTo c q).rsp = s.rsp := rfl
@[simp] theorem State.goTo_rspValid (c : CtrlState) (q : Seq) : (s.goTo c q).rspValid = s.rspValid := rfl
@[simp] theorem State.goTo_txOffer (c : CtrlState) (q : Seq) : (s.goTo c q).txOffer = s.txOffer := rfl
@[simp] theorem State.goTo_txLog (c : CtrlState) (q : Seq) : (s.goTo c q).txLog = s.txLog := rfl
@[simp] theorem State.goTo_rspLog (c : CtrlState) (q : Seq) : (s.goTo c q).rspLog = s.rspLog := rfl
@[simp] theorem State.goTo_resets (c : CtrlState) (q : Seq) : (s.goTo c q).resets = s.resets := rfl
@[simp] theorem State.goTo_ports (c : CtrlState) (q : Seq) : (s.goTo c q).ports = s.ports := rfl

/-! ### `State.startTransfer` -/

@[simp] theorem State.startTransfer_cfg : s.startTransfer.cfg = s.cfg := rfl
@[simp] theorem State.startTransfer_fb : s.startTransfer.fb = s.fb := rfl
@[simp] theorem State.startTransfer_ctrl : s.startTransfer.ctrl = .updating := rfl
@[simp] theorem State.startTransfer_seq : s.startTransfer.seq = { s.seq with phase := .addrSetup, setupK := 0 } := rfl
@[simp] theorem State.startTransfer_busy : s.startTransfer.busy = s.busy := rfl
@[simp] theorem State.startTransfer_cmd : s.startTransfer.cmd = s.cmd := rfl
@[simp] theorem State.startTransfer_rsp : s.startTransfer.rsp = s.rsp := rfl
@[simp] theorem State.startTransfer_rspValid : s.startTransfer.rspValid = s.rspValid := rfl
@[simp] theorem State.startTransfer_txOffer : s.startTransfer.txOffer = s.txOffer := rfl
@[simp] theorem State.startTransfer_txLog : s.startTransfer.txLog = s.txLog := rfl
@[simp] theorem State.startTransfer_rspLog : s.startTransfer.rspLog = s.rspLog := rfl
@[simp] theorem State.startTransfer_resets : s.startTransfer.resets = s.resets := rfl
@[simp] theorem State.startTransfer_ports : s.startTransfer.ports = s.ports := rfl

/-! ### `State.startInit` -/

@[simp] theorem State.startInit_cfg : s.startInit.cfg = s.cfg := rfl
@[simp] theorem State.startInit_fb : s.startInit.fb = s.fb := rfl
@[simp] theorem State.startInit_ctrl : s.startInit.ctrl = s.ctrl := rfl
@[simp] theorem State.startInit_seq : s.startInit.seq = { s.seq with phase := .initCmds, initK := 0 } := rfl
@[simp] theorem State.startInit_busy : s.startInit.busy = s.busy := rfl
@[simp] theorem State.startInit_cmd : s.startInit.cmd = s.cmd := rfl
@[simp] theorem State.startInit_rsp : s.startInit.rsp = s.rsp := rfl
@[simp] theorem State.startInit_rspValid : s.startInit.rspValid = s.rspValid := rfl
@[simp] theorem State.startInit_txOffer : s.startInit.txOffer = s.txOffer := rfl
@[simp] theorem State.startInit_txLog : s.startInit.txLog = s.txLog := rfl
@[simp] theorem State.startInit_rspLog : s.startInit.rspLog = s.rspLog := rfl
@[simp] theorem State.startInit_resets : s.startInit.resets = s.resets := rfl
@[simp] theorem State.startInit_ports : s.startInit.ports = s.ports := rfl

/-! ### `State.endSequence` -/

@[simp] theorem State.endSequence_cfg : s.endSequence.cfg = s.cfg := rfl
@[simp] theorem State.endSequence_fb : s.endSequence.fb = s.fb := rfl
@[simp] theorem State.endSequence_ctrl : s.endSequence.ctrl = .ready := rfl
@[simp] theorem State.endSequence_seq : s.endSequence.seq = { s.seq with phase := .idle } := rfl
@[simp] theorem State.endSequence_busy : s.endSequence.busy = s.busy := rfl
@[simp] theorem State.endSequence_cmd : s.endSequence.cmd = s.cmd := rfl
@[simp] theorem State.endSequence_rsp : s.endSequence.rsp = rspWord .ok false 0 0x00#8 := rfl
@[simp] theorem State.endSequence_rspValid : s.endSequence.rspValid = true := rfl
@[simp] theorem State.endSequence_txOffer : s.endSequence.txOffer = s.txOffer := rfl
@[simp] theorem State.endSequence_txLog : s.endSequence.txLog = s.txLog := rfl
@[simp] theorem State.endSequence_rspLog : s.endSequence.rspLog = s.rspLog := rfl
@[simp] theorem State.endSequence_resets : s.endSequence.resets = s.resets := rfl
@[simp] theorem State.endSequence_ports : s.endSequence.ports = s.ports := rfl

/-! ### `State.latch` -/

@[simp] theorem State.latch_cfg (w : CommandWord) (rest : List CommandWord) : (s.latch w rest).cfg = s.cfg := rfl
@[simp] theorem State.latch_fb (w : CommandWord) (rest : List CommandWord) : (s.latch w rest).fb = s.fb := rfl
@[simp] theorem State.latch_ctrl (w : CommandWord) (rest : List CommandWord) : (s.latch w rest).ctrl = s.ctrl := rfl
@[simp] theorem State.latch_seq (w : CommandWord) (rest : List CommandWord) : (s.latch w rest).seq = s.seq := rfl
@[simp] theorem State.latch_busy (w : CommandWord) (rest : List CommandWord) : (s.latch w rest).busy = true := rfl
@[simp] theorem State.latch_cmd (w : CommandWord) (rest : List CommandWord) : (s.latch w rest).cmd = w := rfl
@[simp] theorem State.latch_rsp (w : CommandWord) (rest : List CommandWord) : (s.latch w rest).rsp = s.rsp := rfl
@[simp] theorem State.latch_rspValid (w : CommandWord) (rest : List CommandWord) : (s.latch w rest).rspValid = s.rspValid := rfl
@[simp] theorem State.latch_txOffer (w : CommandWord) (rest : List CommandWord) : (s.latch w rest).txOffer = s.txOffer := rfl
@[simp] theorem State.latch_txLog (w : CommandWord) (rest : List CommandWord) : (s.latch w rest).txLog = s.txLog := rfl
@[simp] theorem State.latch_rspLog (w : CommandWord) (rest : List CommandWord) : (s.latch w rest).rspLog = s.rspLog := rfl
@[simp] theorem State.latch_resets (w : CommandWord) (rest : List CommandWord) : (s.latch w rest).resets = s.resets := rfl
@[simp] theorem State.latch_ports (w : CommandWord) (rest : List CommandWord) : (s.latch w rest).ports = { s.ports with cmdIn := rest } := rfl

/-! ### `State.deliver` -/

@[simp] theorem State.deliver_cfg : s.deliver.cfg = s.cfg := rfl
@[simp] theorem State.deliver_fb : s.deliver.fb = s.fb := rfl
@[simp] theorem State.deliver_ctrl : s.deliver.ctrl = s.ctrl := rfl
@[simp] theorem State.deliver_seq : s.deliver.seq = s.seq := rfl
@[simp] theorem State.deliver_busy : s.deliver.busy = false := rfl
@[simp] theorem State.deliver_cmd : s.deliver.cmd = s.cmd := rfl
@[simp] theorem State.deliver_rsp : s.deliver.rsp = s.rsp := rfl
@[simp] theorem State.deliver_rspValid : s.deliver.rspValid = false := rfl
@[simp] theorem State.deliver_txOffer : s.deliver.txOffer = s.txOffer := rfl
@[simp] theorem State.deliver_txLog : s.deliver.txLog = s.txLog := rfl
@[simp] theorem State.deliver_rspLog : s.deliver.rspLog = s.rspLog ++ [⟨s.cmd, s.rsp⟩] := rfl
@[simp] theorem State.deliver_resets : s.deliver.resets = s.resets := rfl
@[simp] theorem State.deliver_ports : s.deliver.ports = s.ports := rfl

/-! ### `State.takeReset` -/

@[simp] theorem State.takeReset_cfg : s.takeReset.cfg = s.cfg := rfl
@[simp] theorem State.takeReset_fb : s.takeReset.fb = [] := rfl
@[simp] theorem State.takeReset_ctrl : s.takeReset.ctrl = .uninit := rfl
@[simp] theorem State.takeReset_busy : s.takeReset.busy = false := rfl
@[simp] theorem State.takeReset_rspValid : s.takeReset.rspValid = false := rfl
@[simp] theorem State.takeReset_txOffer : s.takeReset.txOffer = none := rfl
@[simp] theorem State.takeReset_txLog : s.takeReset.txLog = s.txLog := rfl
@[simp] theorem State.takeReset_rspLog : s.takeReset.rspLog = s.rspLog := rfl
@[simp] theorem State.takeReset_resets : s.takeReset.resets = s.resets + 1 := rfl
@[simp] theorem State.takeReset_ports : s.takeReset.ports = s.ports := rfl
@[simp] theorem State.takeReset_phase : s.takeReset.seq.phase = .idle := rfl

/-! ### `State.raiseError` -/

/-- Ending in an error is responding with the status alone (R165). -/
@[simp] theorem State.raiseError_eq (st : Status) : s.raiseError st = s.respond st false 0 0x00#8 := rfl

/-! ### `State.takeEvent`: only the input ports change -/

@[simp] theorem State.takeEvent_cfg : s.takeEvent.cfg = s.cfg := by
  unfold State.takeEvent; split <;> rfl
@[simp] theorem State.takeEvent_fb : s.takeEvent.fb = s.fb := by
  unfold State.takeEvent; split <;> rfl
@[simp] theorem State.takeEvent_ctrl : s.takeEvent.ctrl = s.ctrl := by
  unfold State.takeEvent; split <;> rfl
@[simp] theorem State.takeEvent_seq : s.takeEvent.seq = s.seq := by
  unfold State.takeEvent; split <;> rfl
@[simp] theorem State.takeEvent_busy : s.takeEvent.busy = s.busy := by
  unfold State.takeEvent; split <;> rfl
@[simp] theorem State.takeEvent_cmd : s.takeEvent.cmd = s.cmd := by
  unfold State.takeEvent; split <;> rfl
@[simp] theorem State.takeEvent_rsp : s.takeEvent.rsp = s.rsp := by
  unfold State.takeEvent; split <;> rfl
@[simp] theorem State.takeEvent_rspValid : s.takeEvent.rspValid = s.rspValid := by
  unfold State.takeEvent; split <;> rfl
@[simp] theorem State.takeEvent_txOffer : s.takeEvent.txOffer = s.txOffer := by
  unfold State.takeEvent; split <;> rfl
@[simp] theorem State.takeEvent_txLog : s.takeEvent.txLog = s.txLog := by
  unfold State.takeEvent; split <;> rfl
@[simp] theorem State.takeEvent_rspLog : s.takeEvent.rspLog = s.rspLog := by
  unfold State.takeEvent; split <;> rfl
@[simp] theorem State.takeEvent_resets : s.takeEvent.resets = s.resets := by
  unfold State.takeEvent; split <;> rfl

/-- With no event to come, none lands. -/
theorem State.takeEvent_of_script_nil (h : s.ports.script = []) : s.takeEvent = s := by
  simp [State.takeEvent, h]

/-! ### Views that read only some of the fields -/

/-- Reading `FB` reads the written bytes and the number of the reset draws only. -/
theorem State.fbByte_congr (t u : State) (hf : t.fb = u.fb) (hr : t.resets = u.resets) (i : Nat) :
    t.fbByte i = u.fbByte i := by
  simp [State.fbByte, hf, hr]

end Sys2Proof.Machine
end

