-- ==== Sys2Proof/Laws/Ops.lean ====
section
/-! SUPPORT. One law for each shared operation: reading and writing `FB`, a command's outcome, reset. -/

namespace Sys2Proof.Machine

open Sys2Proof

variable (s : State)

/-- A byte just written reads as written (R50). -/
@[simp] theorem State.fbByte_writeFb_same (i : Nat) (v : Byte) : (s.writeFb i v).fbByte i = v := by
  simp [State.fbByte]

/-- A write changes no other byte (R47). -/
theorem State.fbByte_writeFb_other {i j : Nat} (v : Byte) (h : j ≠ i) : (s.writeFb i v).fbByte j = s.fbByte j := by
  simp [State.fbByte, Memory.read_write_other _ v h]

/-- Every byte of a cleared framebuffer is 0 (R91). -/
theorem State.fbByte_clearFb {i : Nat} (h : i < s.cfg.bufLen) : s.clearFb.fbByte i = 0x00#8 := by
  simp [State.fbByte, Memory.read_fill _ h]

/-- Responding changes no byte. -/
@[simp] theorem State.fbByte_respond (st : Status) (inr : Bool) (idx : Nat) (data : Byte) (i : Nat) :
    (s.respond st inr idx data).fbByte i = s.fbByte i := rfl

/-- After reset every byte is a draw of that reset (R21, R33). -/
@[simp] theorem State.fbByte_takeReset (i : Nat) : s.takeReset.fbByte i = Config.fbDraw (s.resets + 1) i := rfl

/-- A command in a legal configuration has its effect. -/
theorem command_legal {s : State} (h : s.cfg.legal = true) (body : State → State) : command s body = .next (body s) := by
  simp [command, h]

/-- All that a command can do. -/
theorem command_cases {s : State} {body : State → State} {o : Host.Outcome State Fault Refusal} (h : command s body = o) :
    (s.cfg.legal = true ∧ o = .next (body s)) ∨ (s.cfg.legal = false ∧ o = .refused .illegalConfiguration) := by
  subst h
  by_cases hl : s.cfg.legal = true
  · exact .inl ⟨hl, command_legal hl body⟩
  · exact .inr ⟨by simpa using hl, by simp [command, hl]⟩

/-- A command that goes on has the effect of its body, in a legal configuration. -/
theorem command_next {s t : State} {body : State → State} (h : command s body = .next t) :
    s.cfg.legal = true ∧ t = body s := by
  rcases command_cases h with ⟨hl, ho⟩ | ⟨_, ho⟩
  · exact ⟨hl, by simpa using ho⟩
  · cases ho

/-- What R7 asks of a legal configuration. -/
theorem legal_iff (c : Config) :
    c.legal = true ↔ 1 ≤ c.width ∧ c.width ≤ 256 ∧ c.height % 8 = 0 ∧ 1 ≤ c.pageCount ∧ c.pageCount ≤ 8 := by
  simp [Config.legal, and_assoc]

end Sys2Proof.Machine
end

