-- ==== Sys2Proof/Laws/Operands.lean ====
section
/-! SUPPORT. The arithmetic of the address decoder (spec/40_address_decoder.md R80-R82). -/

namespace Sys2Proof.Machine

open Sys2Proof

theorem inRange_iff (c : Config) (x y : Nat) : inRange c x y = true ↔ x < c.width ∧ y < c.height := by
  simp [inRange]

theorem indexMapped_iff (c : Config) (index : Nat) : indexMapped c index = true ↔ index < c.bufLen := by
  rw [indexMapped, decide_eq_true_eq]

/-- In range, the decoder's output is the formula of R80. -/
theorem addrDecode_inRange {c : Config} {x y : Nat} (h : inRange c x y = true) :
    addrDecode c x y = ⟨true, pixelIdx c x y, pixelMask y⟩ := by simp [addrDecode, h]

/-- Out of range, it is 0 (R80). -/
theorem addrDecode_outOfRange {c : Config} {x y : Nat} (h : inRange c x y = false) :
    addrDecode c x y = ⟨false, 0, 0#8⟩ := by simp [addrDecode, h]

/-- The page of an in-range row is one of the pages. -/
theorem page_lt {c : Config} {y : Nat} (hl : c.legal = true) (hy : y < c.height) : y / 8 < c.pageCount := by
  obtain ⟨-, -, h8, -, -⟩ := (legal_iff c).mp hl
  simp only [Config.pageCount]; omega

/-- Column `x` of page `p` lies below `BUF_LEN` (R48). -/
theorem column_lt {c : Config} {x p : Nat} (hx : x < c.width) (hp : p < c.pageCount) : x + p * c.width < c.bufLen := by
  have h1 : (p + 1) * c.width ≤ c.pageCount * c.width := Nat.mul_le_mul_right _ hp
  have h2 : c.bufLen = c.pageCount * c.width := Nat.mul_comm _ _
  have h3 : (p + 1) * c.width = p * c.width + c.width := Nat.succ_mul _ _
  omega

/-- The index of an in-range pixel is mapped (R81 law 1). -/
theorem pixelIdx_lt {c : Config} {x y : Nat} (hl : c.legal = true) (h : inRange c x y = true) :
    pixelIdx c x y < c.bufLen := by
  obtain ⟨hx, hy⟩ := (inRange_iff c x y).mp h
  exact column_lt hx (page_lt hl hy)

/-- The buffer of a legal configuration has at most 2048 bytes (R81 law 4). -/
theorem bufLen_le {c : Config} (hl : c.legal = true) : c.bufLen ≤ 2048 := by
  obtain ⟨-, hw, -, -, hp⟩ := (legal_iff c).mp hl
  exact Nat.mul_le_mul hw hp

/-- The column and the page are read back from the index (R81 law 3). -/
theorem column_page_of_index {c : Config} {x p : Nat} (hx : x < c.width) :
    (x + p * c.width) % c.width = x ∧ (x + p * c.width) / c.width = p := by
  constructor
  · rw [Nat.add_mul_mod_self_right, Nat.mod_eq_of_lt hx]
  · rw [Nat.add_mul_div_right _ _ (by omega), Nat.div_eq_of_lt hx, Nat.zero_add]

/-- Two places in the buffer are the same only for the same column and page (R81 law 3). -/
theorem column_page_inj {c : Config} {x p x' p' : Nat} (hx : x < c.width) (hx' : x' < c.width)
    (h : x + p * c.width = x' + p' * c.width) : x = x' ∧ p = p' := by
  have h1 := column_page_of_index (p := p) hx
  have h2 := column_page_of_index (p := p') hx'
  rw [h] at h1
  exact ⟨h1.1.symm.trans h2.1, h1.2.symm.trans h2.2⟩

/-- The mask of a row has exactly the bit of the row set (R80). -/
theorem pixelMask_getLsbD (y b : Nat) (hb : b < 8) : (pixelMask y).getLsbD b = decide (b = y % 8) := by
  have h : y % 8 < 8 := Nat.mod_lt _ (by decide)
  unfold pixelMask
  generalize y % 8 = k at h
  revert b k
  decide

/-- The bit of a byte that SET_PIXEL writes: the masked bit takes the colour class, every other bit stays (R92). -/
theorem setBit_getLsbD (old : Byte) (y b : Nat) (on : Bool) (hb : b < 8) :
    (setBit old (pixelMask y) on).getLsbD b = if b = y % 8 then on else old.getLsbD b := by
  have hm := pixelMask_getLsbD y b hb
  cases on <;> by_cases h : b = y % 8 <;> simp_all [setBit]

/-- GET_PIXEL reads the masked bit (R93). -/
theorem getBit_eq (byte : Byte) (y : Nat) :
    getBit byte (pixelMask y) = if byte.getLsbD (y % 8) then 0x01#8 else 0x00#8 := by
  have h : y % 8 < 8 := Nat.mod_lt _ (by decide)
  unfold getBit pixelMask
  generalize y % 8 = k at h
  have key : ∀ k < 8, ∀ b : BitVec 8, (b &&& 1#8 <<< k ≠ 0#8) ↔ b.getLsbD k = true := by decide
  simp [key k h byte]

end Sys2Proof.Machine
end

