-- ==== Sys2Proof/Laws/PerInstr.lean ====
section
/-! SUPPORT. Statements about every command as syntax, one lemma per constructor. -/

namespace Sys2Proof.Laws

open Sys2Proof

/-- The encoded word of a well-formed command has the command's opcode in OP and 0 in RSV (spec/30_encoding.md R60, R63, R74). -/
def EncodedFields.Statement (i : Instr) : Prop :=
  i.wf = true → opField (encode i) = i.opcode ∧ rsvField (encode i) = 0

theorem EncodedFields.nop : EncodedFields.Statement .nop := fun _ => by decide

theorem EncodedFields.clear : EncodedFields.Statement .clear := fun _ => by decide

theorem EncodedFields.setPixel (x y c : Nat) : EncodedFields.Statement (.setPixel x y c) := fun h => by
  simp only [Instr.wf, fitsCoord, fitsColour, Bool.and_eq_true, decide_eq_true_eq] at h
  obtain ⟨h1, h2, -⟩ := enc_fields (op := 2) (by decide) h.1.1 h.1.2 h.2
  exact ⟨h1, h2⟩

theorem EncodedFields.getPixel (x y : Nat) : EncodedFields.Statement (.getPixel x y) := fun h => by
  simp only [Instr.wf, fitsCoord, Bool.and_eq_true, decide_eq_true_eq] at h
  obtain ⟨h1, h2, -⟩ := enc_fields (op := 3) (c := 0) (by decide) h.1 h.2 (by decide)
  exact ⟨h1, h2⟩

theorem EncodedFields.decode (x y : Nat) : EncodedFields.Statement (.decode x y) := fun h => by
  simp only [Instr.wf, fitsCoord, Bool.and_eq_true, decide_eq_true_eq] at h
  obtain ⟨h1, h2, -⟩ := enc_fields (op := 4) (c := 0) (by decide) h.1 h.2 (by decide)
  exact ⟨h1, h2⟩

theorem EncodedFields.readByte (index : Nat) : EncodedFields.Statement (.readByte index) := fun h => by
  simp only [Instr.wf, fitsCoord, decide_eq_true_eq] at h
  obtain ⟨h1, h2, -⟩ := enc_fields (op := 5) (y := 0) (c := 0) (by decide) h (by decide) (by decide)
  exact ⟨h1, h2⟩

theorem EncodedFields.init : EncodedFields.Statement .init := fun _ => by decide

theorem EncodedFields.update : EncodedFields.Statement .update := fun _ => by decide

end Sys2Proof.Laws
end

