-- ==== Sys2Proof/Laws/Safety.lean ====
section
/-! SUPPORT. Every transaction of a sequence and every response is framed (spec/30_encoding.md R67, R69, R70). -/

namespace Sys2Proof.Machine

open Sys2Proof

theorem cmdTx_framed (c : Config) (b : Byte) : (cmdTx c b).framed c := ⟨rfl, .inl rfl⟩

theorem dataTx_framed (c : Config) (b : Byte) : (dataTx c b).framed c := ⟨rfl, .inr rfl⟩

theorem windowTxs_framed {c : Config} {t : Transaction} (h : t ∈ windowTxs c) : t.framed c := by
  obtain ⟨b, -, rfl⟩ := List.mem_map.mp h
  exact cmdTx_framed c b

theorem rowTxs_framed {s : State} {p : Nat} {t : Transaction} (h : t ∈ rowTxs s p) : t.framed s.cfg := by
  obtain ⟨col, -, rfl⟩ := List.mem_map.mp h
  exact dataTx_framed _ _

theorem pagesFrom_framed {s : State} {p : Nat} {t : Transaction} (h : t ∈ pagesFrom s p) : t.framed s.cfg := by
  obtain ⟨q, -, h⟩ := List.mem_flatMap.mp h
  rcases List.mem_cons.mp h with rfl | h
  · exact cmdTx_framed _ _
  · exact rowTxs_framed h

theorem transferTxs_framed {s : State} {t : Transaction} (h : t ∈ transferTxs s) : t.framed s.cfg :=
  (List.mem_append.mp h).elim windowTxs_framed pagesFrom_framed

/-- All that is still to come of a sequence is framed (R70, spec/42_page_sequencer.md R116). -/
theorem seqRest_framed {s : State} {t : Transaction} (h : t ∈ seqRest s) : t.framed s.cfg := by
  unfold seqRest at h
  split at h
  · simp at h
  · rcases List.mem_append.mp h with h | h
    · obtain ⟨b, -, rfl⟩ := List.mem_map.mp (List.mem_of_mem_drop h)
      exact cmdTx_framed _ _
    · exact transferTxs_framed (s := s.clearFb) h
  · exact transferTxs_framed (s := s.clearFb) h
  · exact (List.mem_append.mp h).elim (fun h => windowTxs_framed (List.mem_of_mem_drop h)) pagesFrom_framed
  · exact pagesFrom_framed h
  · exact (List.mem_append.mp h).elim (fun h => rowTxs_framed (List.mem_of_mem_drop h)) pagesFrom_framed

/-- Every response the block forms is framed (R67, R69). -/
theorem rspWord_framed (st : Status) (inr : Bool) (idx : Nat) (data : Byte) : rspFramed (rspWord st inr idx data) := by
  obtain ⟨h1, -, h3, -, -⟩ := rspFields_toNat (rspWord st inr idx data)
  rw [rspWord_toNat] at h1 h3
  have hd := data.isLt
  have hb : inr.toNat < 2 := by cases inr <;> decide
  have hs : (statusCode st).toNat ≤ 3 := by cases st <;> decide
  refine ⟨?_, BitVec.eq_of_toNat_eq (by rw [h3, BitVec.toNat_ofNat]; omega)⟩
  rw [BitVec.le_def, h1, BitVec.toNat_ofNat]
  omega

end Sys2Proof.Machine
end

