-- ==== Sys2Proof/Laws/Sequencer.lean ====
section
/-! SUPPORT. The laws of the sequencer: what is still to come is emitted in order, one move at a time, and what a run of
moves ends in, when the sink accepts all of it and when it stalls (spec/42_page_sequencer.md). -/

namespace Sys2Proof.Machine

open Sys2Proof

/-! ### The lengths of the sequences (R115) -/

@[simp] theorem initTxs_length (c : Config) : (initTxs c).length = 23 := rfl

@[simp] theorem windowTxs_length (c : Config) : (windowTxs c).length = 6 := rfl

@[simp] theorem rowTxs_length (s : State) (p : Nat) : (rowTxs s p).length = s.cfg.width := by simp [rowTxs]

@[simp] theorem pageTxs_length (s : State) (p : Nat) : (pageTxs s p).length = s.cfg.width + 1 := by simp [pageTxs]

/-- The pages from `p` on begin with page `p`. -/
theorem pagesFrom_of_lt (s : State) {p : Nat} (h : p < s.cfg.pageCount) :
    pagesFrom s p = pageTxs s p ++ pagesFrom s (p + 1) := by
  unfold pagesFrom
  rw [List.drop_eq_getElem_cons (by simpa using h)]
  simp

/-- After the last page there is none. -/
theorem pagesFrom_of_ge (s : State) {p : Nat} (h : s.cfg.pageCount ≤ p) : pagesFrom s p = [] := by
  simp [pagesFrom, List.drop_eq_nil_of_le, h]

@[simp] theorem pagesFrom_length (s : State) (p : Nat) :
    (pagesFrom s p).length = (s.cfg.pageCount - p) * (1 + s.cfg.width) := by
  simp [pagesFrom, List.length_flatMap, Nat.add_comm]

@[simp] theorem transferTxs_length (s : State) : (transferTxs s).length = s.cfg.transferLen := by
  simp [transferTxs, Config.transferLen]

@[simp] theorem initSequenceTxs_length (s : State) : (initSequenceTxs s).length = 23 + s.cfg.transferLen := by
  simp [initSequenceTxs]

/-- A row from column `col` on begins with the data byte of that column. -/
theorem rowTxs_drop (s : State) {p col : Nat} (h : col < s.cfg.width) :
    (rowTxs s p).drop col = dataTx s.cfg (s.fbByte (col + p * s.cfg.width)) :: (rowTxs s p).drop (col + 1) := by
  rw [List.drop_eq_getElem_cons (by simpa using h)]
  simp [rowTxs]

/-- The table from entry `k` on begins with that entry. -/
theorem initTxs_drop (c : Config) {k : Nat} (h : k < 23) :
    (initTxs c).drop k = cmdTx c ((initTable c).getD k 0x00#8) :: (initTxs c).drop (k + 1) := by
  have hk : k < (initTable c).length := h
  rw [List.drop_eq_getElem_cons (by simpa using h)]
  simp [initTxs, hk]

/-- The window from byte `k` on begins with that byte. -/
theorem windowTxs_drop (c : Config) {k : Nat} (h : k < 6) :
    (windowTxs c).drop k = cmdTx c ((windowBytes c).getD k 0x00#8) :: (windowTxs c).drop (k + 1) := by
  have hk : k < (windowBytes c).length := h
  rw [List.drop_eq_getElem_cons (by simpa using h)]
  simp [windowTxs, hk]

/-! ### One move -/

/-- The transactions of a page depend on the parameters and the framebuffer only. -/
theorem pagesFrom_congr {s t : State} (hc : t.cfg = s.cfg) (hf : t.fb = s.fb) (hr : t.resets = s.resets) (p : Nat) :
    pagesFrom t p = pagesFrom s p := by
  simp only [pagesFrom, hc]
  congr 1
  funext q
  simp only [pageTxs, rowTxs, hc, State.fbByte_congr t s hf hr]

theorem transferTxs_congr {s t : State} (hc : t.cfg = s.cfg) (hf : t.fb = s.fb) (hr : t.resets = s.resets) :
    transferTxs t = transferTxs s := by
  simp only [transferTxs, hc, pagesFrom_congr hc hf hr]

/-- What the cursor's ranges say (R24). -/
theorem cursorInRange_iff (s : State) : s.cursorInRange = true ↔
    s.seq.initK < 23 ∧ s.seq.setupK < 6 ∧ s.seq.pageCur < s.cfg.pageCount ∧ s.seq.colCur < s.cfg.width := by
  simp [State.cursorInRange, and_assoc]

/-- The parts of the cursor that the place of the sequence uses are within their ranges (R24). -/
def State.placeInRange (s : State) : Prop :=
  match s.seq.phase with
  | .idle => True
  | .initCmds => s.seq.initK < 23
  | .initClear => True
  | .addrSetup => s.seq.setupK < 6
  | .pageSelect => s.seq.pageCur < s.cfg.pageCount
  | .pageData => s.seq.pageCur < s.cfg.pageCount ∧ s.seq.colCur < s.cfg.width

theorem placeInRange_of_cursor {s : State} (hc : s.cursorInRange = true) : s.placeInRange := by
  obtain ⟨hk, hu, hp, hcol⟩ := (cursorInRange_iff s).mp hc
  unfold State.placeInRange
  cases s.seq.phase <;> simp [*]

theorem placeInRange_startInit (s : State) : s.startInit.placeInRange := by
  simp [State.placeInRange]

theorem placeInRange_startTransfer (s : State) : s.startTransfer.placeInRange := by
  simp [State.placeInRange]

/-- What a place emits is what was to come first, and what is to come after the move is the rest of it: nothing is dropped,
merged or reordered (spec/20_memory.md R52). -/
theorem seqRest_move {s : State} (hc : s.placeInRange) : seqRest s = s.seqTx.toList ++ seqRest s.seqMove := by
  unfold State.placeInRange at hc
  cases hph : s.seq.phase with
  | idle => simp [seqRest, State.seqMove, State.seqTx, State.seqNext, hph]
  | initCmds =>
    have hk : s.seq.initK < 23 := by simpa only [hph] using hc
    simp only [State.seqMove, State.seqTx, State.seqNext, hph, State.acceptTx_seq]
    by_cases h : s.seq.initK < 22
    · simp only [h, if_true, seqRest, hph, State.goTo_seq]
      rw [initTxs_drop _ hk]
      rfl
    · have h22 : s.seq.initK = 22 := by omega
      simp only [h22, Nat.lt_irrefl, if_false, seqRest, hph, State.goTo_seq]
      rw [initTxs_drop _ (by decide)]
      rfl
  | initClear =>
    simp only [seqRest, State.seqMove, State.seqTx, State.seqNext, hph]
    rfl
  | addrSetup =>
    have hu : s.seq.setupK < 6 := by simpa only [hph] using hc
    simp only [State.seqMove, State.seqTx, State.seqNext, hph, State.acceptTx_seq]
    by_cases h : s.seq.setupK < 5
    · simp only [h, if_true, seqRest, hph, State.goTo_seq]
      rw [windowTxs_drop _ hu]
      rfl
    · have h5 : s.seq.setupK = 5 := by omega
      simp only [h5, Nat.lt_irrefl, if_false, seqRest, hph, State.goTo_seq]
      rw [windowTxs_drop _ (by decide)]
      rfl
  | pageSelect =>
    have hp : s.seq.pageCur < s.cfg.pageCount := by simpa only [hph] using hc
    simp only [seqRest, State.seqMove, State.seqTx, State.seqNext, hph, State.acceptTx_seq]
    rw [pagesFrom_of_lt s hp]
    rfl
  | pageData =>
    obtain ⟨hp, hcol⟩ : s.seq.pageCur < s.cfg.pageCount ∧ s.seq.colCur < s.cfg.width := by simpa only [hph] using hc
    simp only [State.seqMove, State.seqTx, State.seqNext, hph, State.acceptTx_seq, State.acceptTx_cfg]
    by_cases h : s.seq.colCur + 1 < s.cfg.width
    · simp only [h, if_true, seqRest, hph, State.goTo_seq]
      rw [rowTxs_drop s hcol]
      rfl
    · have hlast : (rowTxs s s.seq.pageCur).drop (s.seq.colCur + 1) = [] := by
        apply List.drop_eq_nil_of_le; simp; omega
      by_cases hpage : s.seq.pageCur + 1 < s.cfg.pageCount
      · simp only [h, hpage, if_true, if_false, seqRest, hph, State.goTo_seq]
        rw [rowTxs_drop s hcol, hlast]
        rfl
      · simp only [h, hpage, if_false, seqRest, hph, State.endSequence_seq]
        rw [rowTxs_drop s hcol, hlast, pagesFrom_of_ge s (by omega)]
        rfl

/-- The moves of the sequencer, by the place it is at: the state after the place's transaction, if it has one, is accepted. -/
theorem seqMove_cases (s : State) :
    (s.seq.phase = .idle ∧ s.seqMove = s) ∨
    (∃ t, s.seqTx = some t ∧ t.framed s.cfg ∧
      ((∃ q : Seq, s.seqMove = (s.acceptTx t).goTo s.ctrl q ∧ q.phase.inTransfer = s.seq.phase.inTransfer ∧
          q.phase ≠ .idle ∧ q.phase ≠ .initClear ∧ (q.phase = .initCmds ↔ s.seq.phase = .initCmds)) ∨
        (s.seq.phase = .initCmds ∧ s.seqMove = (s.acceptTx t).goTo .ready { s.seq with phase := .initClear }) ∨
        (s.seq.phase = .pageData ∧ s.seqMove = (s.acceptTx t).endSequence))) ∨
    (s.seq.phase = .initClear ∧ s.seqTx = none ∧ s.seqMove = s.clearFb.startTransfer) := by
  unfold State.seqMove State.seqNext State.seqTx
  cases hph : s.seq.phase with
  | idle => simp
  | initCmds =>
    refine .inr (.inl ⟨_, rfl, ⟨rfl, .inl rfl⟩, ?_⟩)
    simp only [State.acceptTx_seq, hph]
    by_cases h : s.seq.initK < 22
    · exact .inl ⟨_, by simp only [h, if_true]; rfl, by simp, by simp, by simp, by simp⟩
    · exact .inr (.inl ⟨trivial, by simp only [h, if_false]⟩)
  | initClear => simp
  | addrSetup =>
    refine .inr (.inl ⟨_, rfl, ⟨rfl, .inl rfl⟩, ?_⟩)
    simp only [State.acceptTx_seq, hph]
    by_cases h : s.seq.setupK < 5
    · exact .inl ⟨_, by simp only [h, if_true]; rfl, by simp, by simp, by simp, by simp⟩
    · exact .inl ⟨_, by simp only [h, if_false]; rfl, by simp [SeqPhase.inTransfer], by simp, by simp, by simp⟩
  | pageSelect =>
    refine .inr (.inl ⟨_, rfl, ⟨rfl, .inl rfl⟩, ?_⟩)
    simp only [State.acceptTx_seq, hph]
    exact .inl ⟨_, rfl, by simp [SeqPhase.inTransfer], by simp, by simp, by simp⟩
  | pageData =>
    refine .inr (.inl ⟨_, rfl, ⟨rfl, .inr rfl⟩, ?_⟩)
    simp only [State.acceptTx_seq, hph]
    by_cases h : s.seq.colCur + 1 < s.cfg.width
    · exact .inl ⟨_, by simp only [State.acceptTx_cfg, h, if_true]; rfl, by simp, by simp, by simp, by simp⟩
    · by_cases hpage : s.seq.pageCur + 1 < s.cfg.pageCount
      · exact .inl ⟨_, by simp only [State.acceptTx_cfg, h, hpage, if_true, if_false]; rfl, by simp [SeqPhase.inTransfer],
          by simp, by simp, by simp⟩
      · exact .inr (.inr ⟨trivial, by simp only [State.acceptTx_cfg, h, hpage, if_false]⟩)

/-- A move keeps the cursor within its ranges (R24). -/
theorem cursorInRange_move {s : State} (hl : s.cfg.legal = true) (hc : s.cursorInRange = true) :
    s.seqMove.cursorInRange = true := by
  obtain ⟨hk, hu, hp, hcol⟩ := (cursorInRange_iff s).mp hc
  obtain ⟨hw, -, -, hpc, -⟩ := (legal_iff s.cfg).mp hl
  rw [cursorInRange_iff]
  unfold State.seqMove State.seqTx State.seqNext
  cases hph : s.seq.phase with
  | idle => exact ⟨hk, hu, hp, hcol⟩
  | initCmds =>
    by_cases h : s.seq.initK < 22 <;> simp [hph, h] <;> omega
  | initClear => simp; omega
  | addrSetup =>
    by_cases h : s.seq.setupK < 5 <;> simp [hph, h] <;> omega
  | pageSelect => simp [hph]; omega
  | pageData =>
    by_cases h : s.seq.colCur + 1 < s.cfg.width
    · simp [hph, h]; omega
    · by_cases hpage : s.seq.pageCur + 1 < s.cfg.pageCount <;> simp [hph, h, hpage] <;> omega

/-- A move keeps the place in range. -/
theorem placeInRange_move {s : State} (hl : s.cfg.legal = true) (hc : s.placeInRange) : s.seqMove.placeInRange := by
  obtain ⟨hw, -, -, hpc, -⟩ := (legal_iff s.cfg).mp hl
  unfold State.placeInRange at hc
  unfold State.seqMove State.seqTx State.seqNext
  cases hph : s.seq.phase with
  | idle => simp [State.placeInRange, hph]
  | initCmds =>
    by_cases h : s.seq.initK < 22 <;> simp [State.placeInRange, hph, h]
    omega
  | initClear => simp [State.placeInRange]
  | addrSetup =>
    by_cases h : s.seq.setupK < 5 <;> simp [State.placeInRange, hph, h] <;> omega
  | pageSelect =>
    have hp : s.seq.pageCur < s.cfg.pageCount := by simpa only [hph] using hc
    simp [State.placeInRange, hph, hp]; omega
  | pageData =>
    obtain ⟨hp, hcol⟩ : s.seq.pageCur < s.cfg.pageCount ∧ s.seq.colCur < s.cfg.width := by simpa only [hph] using hc
    by_cases h : s.seq.colCur + 1 < s.cfg.width
    · simp [State.placeInRange, hph, h, hp]
    · by_cases hpage : s.seq.pageCur + 1 < s.cfg.pageCount <;> simp [State.placeInRange, hph, h, hpage]

/-- The places left in the sequence: one for each transaction to come, and one for the clear of an INIT. -/
def placesLeft (s : State) : Nat :=
  (seqRest s).length + (if s.seq.phase = .initCmds ∨ s.seq.phase = .initClear then 1 else 0)

/-- The sequence has its clear still to come (R112). -/
def beforeClear (s : State) : Bool := s.seq.phase = .initCmds || s.seq.phase = .initClear

/-- The state a sequence ends in when the sink accepts all that is to come: READY, IDLE, the cursor at its last place. -/
def seqFinish (s : State) : State :=
  { s with
    fb := if beforeClear s then Memory.fill s.cfg.bufLen 0x00#8 else s.fb
    ctrl := .ready
    seq :=
      { phase := .idle
        initK := if s.seq.phase = .initCmds then 22 else s.seq.initK
        setupK := if s.seq.phase = .pageSelect ∨ s.seq.phase = .pageData then s.seq.setupK else 5
        pageCur := s.cfg.pageCount - 1
        colCur := s.cfg.width - 1 }
    rsp := rspWord .ok false 0 0x00#8
    rspValid := true
    txOffer := none
    txLog := s.txLog ++ seqRest s
    ports := { s.ports with txRoom := s.roomAfter (seqRest s).length } }

/-- A move does not change where the sequence ends: a last move ends there. -/
theorem seqFinish_move {s : State} (hc : s.placeInRange) (hi : s.seq.phase ≠ .idle) :
    (if s.seqMove.seq.phase = .idle then s.seqMove else seqFinish s.seqMove) = seqFinish s := by
  have hr := seqRest_move hc
  have room (n : Nat) : (s.ports.txRoom.map (· - 1)).map (· - n) = s.ports.txRoom.map (· - (n + 1)) := by
    cases s.ports.txRoom <;> simp [Nat.sub_sub, Nat.add_comm]
  simp only [seqFinish, hr]
  unfold State.placeInRange at hc
  unfold State.seqMove State.seqTx State.seqNext
  cases hph : s.seq.phase with
  | idle => exact absurd hph hi
  | initCmds =>
    have hk : s.seq.initK < 23 := by simpa only [hph] using hc
    by_cases h : s.seq.initK < 22
    · simp [hph, h, seqRest, beforeClear, State.goTo, State.acceptTx, State.roomAfter, -Option.map_map, room]
    · simp [hph, h, seqRest, beforeClear, State.goTo, State.acceptTx, State.roomAfter, -Option.map_map, room]
      omega
  | initClear =>
    simp [hph, seqRest, beforeClear, State.goTo, State.startTransfer, State.clearFb, State.roomAfter]
  | addrSetup =>
    have hu : s.seq.setupK < 6 := by simpa only [hph] using hc
    by_cases h : s.seq.setupK < 5
    · simp [hph, h, seqRest, beforeClear, State.goTo, State.acceptTx, State.roomAfter, -Option.map_map, room]
    · simp [hph, h, seqRest, beforeClear, State.goTo, State.acceptTx, State.roomAfter, -Option.map_map, room]
      omega
  | pageSelect =>
    simp [hph, seqRest, beforeClear, State.goTo, State.acceptTx, State.roomAfter, -Option.map_map, room]
  | pageData =>
    obtain ⟨hp, hcol⟩ : s.seq.pageCur < s.cfg.pageCount ∧ s.seq.colCur < s.cfg.width := by simpa only [hph] using hc
    by_cases h : s.seq.colCur + 1 < s.cfg.width
    · simp [hph, h, seqRest, beforeClear, State.goTo, State.acceptTx, State.roomAfter, -Option.map_map, room]
    · by_cases hpage : s.seq.pageCur + 1 < s.cfg.pageCount
      · simp [hph, h, hpage, seqRest, beforeClear, State.goTo, State.acceptTx, State.roomAfter, -Option.map_map, room]
      · simp [hph, h, hpage, seqRest, beforeClear, State.goTo, State.endSequence, State.respond, State.acceptTx,
          State.roomAfter]
        omega

/-! ### A run of moves -/

/-- A place that emits is the first of what is to come, and a place that emits nothing is the clear of an INIT. -/
theorem seqTx_spec {s : State} (hc : s.placeInRange) (hi : s.seq.phase ≠ .idle) :
    (∃ t, s.seqTx = some t ∧ t.framed s.cfg ∧ seqRest s = t :: seqRest s.seqMove ∧ s.seq.phase ≠ .initClear) ∨
    (s.seqTx = none ∧ s.seq.phase = .initClear ∧ s.seqMove = s.clearFb.startTransfer ∧
      seqRest s = seqRest s.seqMove) := by
  have hr := seqRest_move hc
  rcases seqMove_cases s with ⟨h, -⟩ | ⟨t, ht, hf, -⟩ | ⟨h, hn, hm⟩
  · exact absurd h hi
  · refine .inl ⟨t, ht, hf, by rw [hr, ht]; rfl, fun hcl => ?_⟩
    simp [State.seqTx, hcl] at ht
  · exact .inr ⟨hn, h, hm, by rw [hr, hn]; rfl⟩

/-- Each move takes one place. -/
theorem placesLeft_move {s : State} (hc : s.placeInRange) (hi : s.seq.phase ≠ .idle) :
    placesLeft s = placesLeft s.seqMove + 1 := by
  unfold placesLeft
  rw [seqRest_move hc]
  rcases seqMove_cases s with ⟨h, -⟩ | ⟨t, ht, -, ⟨q, hm, -, h1, h2, h3⟩ | ⟨hph, hm⟩ | ⟨hph, hm⟩⟩ | ⟨h, hn, hm⟩
  · exact absurd h hi
  · have hcl : s.seq.phase ≠ .initClear := fun hcl => by simp [State.seqTx, hcl] at ht
    have : s.seqMove.seq.phase = q.phase := by rw [hm]; rfl
    simp only [ht, this, h2, h3, hcl, or_false, Option.toList_some, List.length_append, List.length_singleton]
    omega
  · have : s.seqMove.seq.phase = .initClear := by rw [hm]; rfl
    simp only [ht, hph, this, Option.toList_some, List.length_append, List.length_singleton]
    simp; omega
  · have : s.seqMove.seq.phase = .idle := by rw [hm]; rfl
    simp only [ht, hph, this, Option.toList_some, List.length_append, List.length_singleton]
    simp; omega
  · have : s.seqMove.seq.phase = .addrSetup := by rw [hm]; rfl
    simp [h, hn, this]

/-- `seqFuel` is enough from every place of every sequence. -/
theorem placesLeft_le {s : State} (hc : s.placeInRange) : placesLeft s ≤ seqFuel s.cfg := by
  have hmul (p : Nat) : (s.cfg.pageCount - p) * (1 + s.cfg.width) ≤ s.cfg.pageCount * (1 + s.cfg.width) :=
    Nat.mul_le_mul_right _ (by omega)
  have hpc := hmul s.seq.pageCur
  unfold State.placeInRange at hc
  unfold placesLeft seqRest seqFuel
  cases hph : s.seq.phase with
  | pageData =>
    obtain ⟨hp, hcol⟩ : s.seq.pageCur < s.cfg.pageCount ∧ s.seq.colCur < s.cfg.width := by simpa only [hph] using hc
    have hnext : (s.cfg.pageCount - s.seq.pageCur) * (1 + s.cfg.width) =
        (s.cfg.pageCount - (s.seq.pageCur + 1)) * (1 + s.cfg.width) + (1 + s.cfg.width) := by
      rw [← Nat.succ_mul]; congr 1; omega
    simp [Config.transferLen]; omega
  | _ => simp [Config.transferLen]; try omega

/-- A run from a place of the sequence, when the sink accepts all that is to come, ends where the sequence ends. -/
theorem seqRun_completes {fuel : Nat} {s : State} (hl : s.cfg.legal = true) (hc : s.placeInRange)
    (hi : s.seq.phase ≠ .idle) (hroom : s.roomFor (seqRest s).length = true) (hfuel : placesLeft s ≤ fuel) :
    seqRun fuel s = seqFinish s := by
  induction fuel generalizing s with
  | zero => have := placesLeft_move hc hi; omega
  | succ fuel ih =>
    have hplaces := placesLeft_move hc hi
    have hfin := seqFinish_move hc hi
    have hroom' : s.seqWaits = false ∧ s.seqMove.roomFor (seqRest s.seqMove).length = true := by
      rcases seqMove_cases s with ⟨h, -⟩ | ⟨t, ht, -, hm⟩ | ⟨-, hn, hm⟩
      · exact absurd h hi
      · have hports : s.seqMove.ports.txRoom = s.ports.txRoom.map (· - 1) := by
          rcases hm with ⟨q, hm, -⟩ | ⟨-, hm⟩ | ⟨-, hm⟩ <;> rw [hm] <;> rfl
        have hlen : (seqRest s).length = (seqRest s.seqMove).length + 1 := by
          rw [seqRest_move hc, ht]; simp
        rw [hlen] at hroom
        unfold State.roomFor State.seqWaits State.sinkStalls at *
        rw [hports]
        cases hr : s.ports.txRoom with
        | none => simp
        | some m =>
          simp only [hr, decide_eq_true_eq] at hroom
          have : m ≠ 0 := by omega
          simp [this]; omega
      · refine ⟨by simp [State.seqWaits, hn], ?_⟩
        have hrest : seqRest s = seqRest s.seqMove := by rw [seqRest_move hc, hn]; rfl
        have hports : s.seqMove.ports = s.ports := by rw [hm]; rfl
        rw [← hrest]
        simpa only [State.roomFor, hports] using hroom
    have hcfg : s.seqMove.cfg = s.cfg := by
      rcases seqMove_cases s with ⟨h, -⟩ | ⟨t, -, -, ⟨q, hm, -⟩ | ⟨-, hm⟩ | ⟨-, hm⟩⟩ | ⟨-, -, hm⟩
      · exact absurd h hi
      all_goals rw [hm]; rfl
    simp only [seqRun, hi, hroom'.1, if_false, Bool.false_eq_true]
    by_cases hidle : s.seqMove.seq.phase = .idle
    · rw [if_pos hidle] at hfin
      rw [← hfin]
      cases fuel <;> simp [seqRun, hidle]
    · rw [if_neg hidle] at hfin
      rw [← hfin]
      exact ih (by rw [hcfg]; exact hl) (placeInRange_move hl hc) hidle hroom'.2 (by omega)

/-- What holds of state `t`, in which a sequence started from `s` waits for the sink after `n` transactions (R117, R118). -/
structure SeqStalled (s : State) (n : Nat) (t : State) : Prop where
  cfg : t.cfg = s.cfg
  resets : t.resets = s.resets
  busy : t.busy = s.busy
  cmd : t.cmd = s.cmd
  rsp : t.rsp = s.rsp
  rspValid : t.rspValid = s.rspValid
  rspLog : t.rspLog = s.rspLog
  ports : t.ports = { s.ports with txRoom := some 0 }
  /-- The accepted transactions are the first `n` of what was to come. -/
  txLog : t.txLog = s.txLog ++ (seqRest s).take n
  /-- The next one is offered. -/
  txOffer : t.txOffer = (seqRest s)[n]?
  /-- The rest is still to come. -/
  rest : seqRest t = (seqRest s).drop n
  cursor : s.cursorInRange = true → t.cursorInRange = true
  notIdle : t.seq.phase ≠ .idle
  notClear : t.seq.phase ≠ .initClear
  /-- The sequence goes forward only. -/
  forward : s.seq.phase ≠ .initCmds → t.seq.phase.inTransfer = true
  ctrl : t.ctrl = if t.seq.phase.inTransfer && !s.seq.phase.inTransfer then .updating else s.ctrl
  fb : t.fb = if beforeClear s && t.seq.phase.inTransfer then Memory.fill s.cfg.bufLen 0x00#8 else s.fb

/-- A run from a place of the sequence, when the sink accepts only `n` of what is to come, waits there. -/
theorem seqRun_stalls {fuel n : Nat} {s : State} (hl : s.cfg.legal = true) (hc : s.placeInRange)
    (hroom : s.ports.txRoom = some n) (hn : n < (seqRest s).length) (hfuel : placesLeft s ≤ fuel) :
    SeqStalled s n (seqRun fuel s) := by
  induction fuel generalizing s n with
  | zero => unfold placesLeft at hfuel; omega
  | succ fuel ih =>
    have hi : s.seq.phase ≠ .idle := fun h => by simp [seqRest, h] at hn
    have hplaces := placesLeft_move hc hi
    rcases seqMove_cases s with ⟨h, -⟩ | ⟨t, ht, -, hm⟩ | ⟨hph, hnone, hm⟩
    · exact absurd h hi
    · have hrest : seqRest s = t :: seqRest s.seqMove := by rw [seqRest_move hc, ht]; rfl
      have hcl : s.seq.phase ≠ .initClear := fun hcl => by simp [State.seqTx, hcl] at ht
      cases n with
      | zero =>
        have hw : s.seqWaits = true := by simp [State.seqWaits, State.sinkStalls, ht, hroom]
        simp only [seqRun, hi, hw, if_false, if_true]
        have hph : s.seq.phase = .initCmds ∨ s.seq.phase.inTransfer = true := by
          cases hph : s.seq.phase <;> simp_all [SeqPhase.inTransfer]
        exact
          { cfg := rfl, resets := rfl, busy := rfl, cmd := rfl, rsp := rfl, rspValid := rfl, rspLog := rfl
            ports := by rw [← hroom]
            txLog := by simp
            txOffer := by simp [hrest, ht]
            rest := rfl
            cursor := id, notIdle := hi, notClear := hcl
            forward := fun h => hph.resolve_left h
            ctrl := by cases s.seq.phase.inTransfer <;> rfl
            fb := by cases hph : s.seq.phase <;> simp [beforeClear, SeqPhase.inTransfer, hph] }
      | succ n =>
        have hw : s.seqWaits = false := by simp [State.seqWaits, State.sinkStalls, hroom]
        simp only [seqRun, hi, hw, if_false, Bool.false_eq_true]
        rw [hrest] at hn
        have hn' : n < (seqRest s.seqMove).length := by simpa using hn
        have hne : s.seqMove.seq.phase ≠ .idle := fun h => by simp [seqRest, h] at hn'
        have hports : s.seqMove.ports = { s.ports with txRoom := some n } := by
          rcases hm with ⟨q, hm, -⟩ | ⟨-, hm⟩ | ⟨-, hm⟩ <;> rw [hm] <;> simp [hroom]
        have hcfg : s.seqMove.cfg = s.cfg := by
          rcases hm with ⟨q, hm, -⟩ | ⟨-, hm⟩ | ⟨-, hm⟩ <;> rw [hm] <;> rfl
        have hs := ih (n := n) (by rw [hcfg]; exact hl) (placeInRange_move hl hc) (by rw [hports]) hn' (by omega)
        have htake : s.txLog ++ [t] ++ (seqRest s.seqMove).take n = s.txLog ++ (seqRest s).take (n + 1) := by
          rw [hrest]; simp
        have hnth : (seqRest s.seqMove)[n]? = (seqRest s)[n + 1]? := by rw [hrest]; simp
        have hdrop : (seqRest s.seqMove).drop n = (seqRest s).drop (n + 1) := by rw [hrest]; simp
        generalize seqRun fuel s.seqMove = u at hs
        rcases hm with ⟨q, hm, hq, -, hq2, hq3⟩ | ⟨hph, hm⟩ | ⟨-, hm⟩
        · have hb : beforeClear s.seqMove = beforeClear s := by
            rw [hm]; simp [beforeClear, hq2, hq3, hcl]
          have hT : s.seqMove.seq.phase.inTransfer = s.seq.phase.inTransfer := by rw [hm]; simpa using hq
          exact
            { cfg := hs.cfg.trans hcfg
              resets := hs.resets.trans (by rw [hm]; rfl)
              busy := hs.busy.trans (by rw [hm]; rfl)
              cmd := hs.cmd.trans (by rw [hm]; rfl)
              rsp := hs.rsp.trans (by rw [hm]; rfl)
              rspValid := hs.rspValid.trans (by rw [hm]; rfl)
              rspLog := hs.rspLog.trans (by rw [hm]; rfl)
              ports := hs.ports.trans (by rw [hports])
              txLog := by rw [← htake, hs.txLog]; congr 1; rw [hm]; rfl
              txOffer := hs.txOffer.trans hnth
              rest := hs.rest.trans hdrop
              cursor := fun h => hs.cursor (cursorInRange_move hl h), notIdle := hs.notIdle, notClear := hs.notClear
              forward := fun h => hs.forward (by rw [hm]; simpa [hq3] using h)
              ctrl := by rw [hs.ctrl, hT]; congr 1; rw [hm]; rfl
              fb := by rw [hs.fb, hb, hcfg]; congr 1; rw [hm]; rfl }
        · have hclear : s.seqMove.seq.phase = .initClear := by rw [hm]; rfl
          have hT : u.seq.phase.inTransfer = true := hs.forward (by rw [hclear]; decide)
          exact
            { cfg := hs.cfg.trans hcfg
              resets := hs.resets.trans (by rw [hm]; rfl)
              busy := hs.busy.trans (by rw [hm]; rfl)
              cmd := hs.cmd.trans (by rw [hm]; rfl)
              rsp := hs.rsp.trans (by rw [hm]; rfl)
              rspValid := hs.rspValid.trans (by rw [hm]; rfl)
              rspLog := hs.rspLog.trans (by rw [hm]; rfl)
              ports := hs.ports.trans (by rw [hports])
              txLog := by rw [← htake, hs.txLog]; congr 1; rw [hm]; rfl
              txOffer := hs.txOffer.trans hnth
              rest := hs.rest.trans hdrop
              cursor := fun h => hs.cursor (cursorInRange_move hl h), notIdle := hs.notIdle, notClear := hs.notClear
              forward := fun _ => hT
              ctrl := by rw [hs.ctrl, hT, hclear, hph]; rfl
              fb := by rw [hs.fb, hT, hcfg]; simp only [beforeClear, hclear, hph]; rfl }
        · exact absurd (by rw [hm]; rfl) hne
    · have hrest : seqRest s = seqRest s.seqMove := by rw [seqRest_move hc, hnone]; rfl
      have hw : s.seqWaits = false := by simp [State.seqWaits, hnone]
      simp only [seqRun, hi, hw, if_false, Bool.false_eq_true]
      have hcfg : s.seqMove.cfg = s.cfg := by rw [hm]; rfl
      have hs := ih (n := n) (by rw [hcfg]; exact hl) (placeInRange_move hl hc) (by rw [hm]; exact hroom)
        (by rw [← hrest]; exact hn) (by omega)
      have hstart : s.seqMove.seq.phase = .addrSetup := by rw [hm]; rfl
      have hT : (seqRun fuel s.seqMove).seq.phase.inTransfer = true := hs.forward (by rw [hstart]; decide)
      generalize seqRun fuel s.seqMove = u at hs hT
      exact
        { cfg := hs.cfg.trans hcfg
          resets := hs.resets.trans (by rw [hm]; rfl)
          busy := hs.busy.trans (by rw [hm]; rfl)
          cmd := hs.cmd.trans (by rw [hm]; rfl)
          rsp := hs.rsp.trans (by rw [hm]; rfl)
          rspValid := hs.rspValid.trans (by rw [hm]; rfl)
          rspLog := hs.rspLog.trans (by rw [hm]; rfl)
          ports := hs.ports.trans (by rw [hm]; rfl)
          txLog := by rw [hs.txLog, hrest]; congr 1; rw [hm]; rfl
          txOffer := hs.txOffer.trans (by rw [hrest])
          rest := hs.rest.trans (by rw [hrest])
          cursor := fun h => hs.cursor (cursorInRange_move hl h), notIdle := hs.notIdle, notClear := hs.notClear
          forward := fun _ => hT
          ctrl := by rw [hs.ctrl, hT, hstart, hph, hm]; rfl
          fb := by rw [hs.fb, hT, hcfg]; simp only [beforeClear, hstart, hph]; rw [hm]; rfl }

end Sys2Proof.Machine
end

