-- ==== Sys2Proof/Laws/Step.lean ====
section
/-! SUPPORT. All that a run of the sequencer, a command and a step can do, each said once. -/

namespace Sys2Proof.Machine

open Sys2Proof

/-! ### The sequencer -/

/-- A run from a place of the sequence either ends the sequence or waits for the sink. -/
theorem runSequence_cases {s : State} (hl : s.cfg.legal = true) (hc : s.placeInRange) (hi : s.seq.phase ≠ .idle) :
    (s.roomFor (seqRest s).length = true ∧ s.runSequence = seqFinish s) ∨
    (∃ n, s.ports.txRoom = some n ∧ n < (seqRest s).length ∧ SeqStalled s n s.runSequence) := by
  by_cases hroom : s.roomFor (seqRest s).length = true
  · exact .inl ⟨hroom, seqRun_completes hl hc hi hroom (placesLeft_le hc)⟩
  · refine .inr ?_
    cases hr : s.ports.txRoom with
    | none => simp [State.roomFor, hr] at hroom
    | some n =>
      have hn : n < (seqRest s).length := by simpa [State.roomFor, hr] using hroom
      exact ⟨n, rfl, hn, seqRun_stalls hl hc hr hn (placesLeft_le hc)⟩

/-- With no sequence in progress there is none to run. -/
theorem runSequence_idle {s : State} (hi : s.seq.phase = .idle) : s.runSequence = s := by
  unfold State.runSequence
  cases seqFuel s.cfg <;> simp [seqRun, hi]

/-- A run changes neither the parameters, the draws, the command, nor any input but the room of the sink, records no
response, and only appends to TXLOG. -/
theorem runSequence_frame {s : State} (hl : s.cfg.legal = true) (hc : s.placeInRange) :
    s.runSequence.cfg = s.cfg ∧ s.runSequence.resets = s.resets ∧ s.runSequence.busy = s.busy ∧
      s.runSequence.cmd = s.cmd ∧ s.runSequence.rspLog = s.rspLog ∧
      s.runSequence.ports = { s.ports with txRoom := s.runSequence.ports.txRoom } ∧ s.txLog <+: s.runSequence.txLog := by
  by_cases hi : s.seq.phase = .idle
  · rw [runSequence_idle hi]; simp
  · rcases runSequence_cases hl hc hi with ⟨-, h⟩ | ⟨n, -, -, h⟩
    · rw [h]; simp [seqFinish]
    · exact ⟨h.cfg, h.resets, h.busy, h.cmd, h.rspLog, by rw [h.ports], by rw [h.txLog]; simp⟩

/-- What is offered while a sequence waits is the transaction at its cursor (R117). -/
theorem SeqStalled.offer_eq {s t : State} {n : Nat} (hp : t.placeInRange) (h : SeqStalled s n t) : t.txOffer = t.seqTx := by
  rcases seqTx_spec hp h.notIdle with ⟨tx, htx, -, hrest, -⟩ | ⟨-, hcl, -⟩
  · have h0 : (seqRest t)[0]? = (seqRest s)[n]? := by rw [h.rest]; simp
    rw [h.txOffer, ← h0, hrest, htx]; rfl
  · exact absurd hcl h.notClear

/-- INIT still has the table and a transfer of the cleared framebuffer to come (R112). -/
@[simp] theorem seqRest_startInit (s : State) : seqRest s.startInit = initSequenceTxs s := rfl

/-- A transfer still has the window and every page to come (R113). -/
@[simp] theorem seqRest_startTransfer (s : State) : seqRest s.startTransfer = transferTxs s := rfl

/-! ### Commands -/

/-! Each meaning in a legal configuration, in the terms of the shared operations. -/

section
variable {s : State} (hl : s.cfg.legal = true)
include hl

theorem exec_nop : exec .nop s = .next (s.respond .ok false 0 0x00#8) := by
  simp [exec, execNop, command_legal hl]

theorem exec_clear : exec .clear s = .next (s.clearFb.respond .ok false 0 0x00#8) := by
  simp [exec, execClear, command_legal hl]

theorem exec_setPixel_inRange {x y : Nat} (c : Nat) (hr : inRange s.cfg x y = true) :
    exec (.setPixel x y c) s =
      .next ((s.writeFb (pixelIdx s.cfg x y) (setBit (s.fbByte (pixelIdx s.cfg x y)) (pixelMask y) (colourOn c))).respond
        .ok true (pixelIdx s.cfg x y) (setBit (s.fbByte (pixelIdx s.cfg x y)) (pixelMask y) (colourOn c))) := by
  simp [exec, execSetPixel, command_legal hl, addrDecode_inRange hr]

theorem exec_setPixel_outOfRange {x y : Nat} (c : Nat) (hr : inRange s.cfg x y = false) :
    exec (.setPixel x y c) s = .next (s.respond .ok false 0 0x00#8) := by
  simp [exec, execSetPixel, command_legal hl, addrDecode_outOfRange hr]

theorem exec_getPixel_inRange {x y : Nat} (hr : inRange s.cfg x y = true) :
    exec (.getPixel x y) s =
      .next (s.respond .ok true (pixelIdx s.cfg x y) (getBit (s.fbByte (pixelIdx s.cfg x y)) (pixelMask y))) := by
  simp [exec, execGetPixel, command_legal hl, addrDecode_inRange hr]

theorem exec_getPixel_outOfRange {x y : Nat} (hr : inRange s.cfg x y = false) :
    exec (.getPixel x y) s = .next (s.respond .ok false 0 0x00#8) := by
  simp [exec, execGetPixel, command_legal hl, addrDecode_outOfRange hr]

theorem exec_decode (x y : Nat) :
    exec (.decode x y) s =
      .next (s.respond .ok (addrDecode s.cfg x y).inr (addrDecode s.cfg x y).idx (addrDecode s.cfg x y).mask) := by
  simp [exec, execDecode, command_legal hl]

theorem exec_readByte_mapped {index : Nat} (h : indexMapped s.cfg index = true) :
    exec (.readByte index) s = .next (s.respond .ok true index (s.fbByte index)) := by
  simp [exec, execReadByte, command_legal hl, h]

theorem exec_readByte_unmapped {index : Nat} (h : indexMapped s.cfg index = false) :
    exec (.readByte index) s = .next (s.respond .errRange false 0 0x00#8) := by
  simp [exec, execReadByte, command_legal hl, h]

theorem exec_init : exec .init s = .next s.startInit.runSequence := by
  simp [exec, execInit, command_legal hl]

theorem exec_update_uninit (hu : s.ctrl = .uninit) : exec .update s = .next (s.respond .errState false 0 0x00#8) := by
  simp [exec, execUpdate, command_legal hl, hu]

theorem exec_update (hu : s.ctrl ≠ .uninit) : exec .update s = .next s.startTransfer.runSequence := by
  simp [exec, execUpdate, command_legal hl, hu]

end

/-- All that a command can do when it goes on: respond; or respond after the clear, or after the write of one in-range byte;
or run its sequence. -/
theorem exec_cases {i : Instr} {s t : State} (h : exec i s = .next t) : s.cfg.legal = true ∧
    ((∃ st inr idx data, t = s.respond st inr idx data) ∨
     (i = .clear ∧ t = s.clearFb.respond .ok false 0 0x00#8) ∨
     (∃ x y c, i = .setPixel x y c ∧ inRange s.cfg x y = true ∧
        t = (s.writeFb (pixelIdx s.cfg x y) (setBit (s.fbByte (pixelIdx s.cfg x y)) (pixelMask y) (colourOn c))).respond
          .ok true (pixelIdx s.cfg x y) (setBit (s.fbByte (pixelIdx s.cfg x y)) (pixelMask y) (colourOn c))) ∨
     (i = .init ∧ t = s.startInit.runSequence) ∨
     (i = .update ∧ s.ctrl ≠ .uninit ∧ t = s.startTransfer.runSequence)) := by
  cases i <;> simp only [exec, execNop, execClear, execSetPixel, execGetPixel, execDecode, execReadByte, execInit,
    execUpdate] at h
  case nop => obtain ⟨hl, rfl⟩ := command_next h; exact ⟨hl, .inl ⟨_, _, _, _, rfl⟩⟩
  case clear => obtain ⟨hl, rfl⟩ := command_next h; exact ⟨hl, .inr (.inl ⟨rfl, rfl⟩)⟩
  case setPixel x y c =>
    obtain ⟨hl, rfl⟩ := command_next h
    refine ⟨hl, ?_⟩
    cases hr : inRange s.cfg x y with
    | true => exact .inr (.inr (.inl ⟨x, y, c, rfl, hr, by simp [addrDecode, hr]⟩))
    | false => exact .inl ⟨.ok, false, 0, 0x00#8, by simp [addrDecode, hr]⟩
  case getPixel x y =>
    obtain ⟨hl, rfl⟩ := command_next h
    refine ⟨hl, .inl ?_⟩
    cases hr : inRange s.cfg x y with
    | true => exact ⟨_, _, _, _, by simp only [addrDecode, hr, if_true]; rfl⟩
    | false => exact ⟨.ok, false, 0, 0x00#8, by simp [addrDecode, hr]⟩
  case decode x y => obtain ⟨hl, rfl⟩ := command_next h; exact ⟨hl, .inl ⟨_, _, _, _, rfl⟩⟩
  case readByte index =>
    obtain ⟨hl, rfl⟩ := command_next h
    refine ⟨hl, .inl ?_⟩
    cases hr : indexMapped s.cfg index with
    | true => exact ⟨_, _, _, _, by simp only [if_true]; rfl⟩
    | false => exact ⟨.errRange, false, 0, 0x00#8, by simp⟩
  case init => obtain ⟨hl, rfl⟩ := command_next h; exact ⟨hl, .inr (.inr (.inr (.inl ⟨rfl, rfl⟩)))⟩
  case update =>
    obtain ⟨hl, rfl⟩ := command_next h
    refine ⟨hl, ?_⟩
    by_cases hu : s.ctrl = .uninit
    · exact .inl ⟨.errState, false, 0, 0x00#8, by simp [hu]⟩
    · exact .inr (.inr (.inr (.inr ⟨rfl, hu, by simp [hu]⟩)))

/-- In a legal configuration every command goes on (R160), and in an illegal one every command is refused (R7). -/
theorem exec_total (i : Instr) (s : State) :
    (s.cfg.legal = true ∧ ∃ t, exec i s = .next t) ∨ (s.cfg.legal = false ∧ exec i s = .refused .illegalConfiguration) := by
  cases i <;> simp only [exec, execNop, execClear, execSetPixel, execGetPixel, execDecode, execReadByte, execInit, execUpdate,
    command] <;> cases s.cfg.legal <;> simp

/-- An illegal word is answered ERR_ILLEGAL and changes nothing else (R161, R165). -/
theorem runWord_illegal {w : CommandWord} {s : State} {e : DecodeError} (hl : s.cfg.legal = true)
    (h : decodeWord w = .error e) : runWord w s = .next (s.respond .errIllegal false 0 0x00#8) := by
  simp only [runWord, h]; exact command_legal hl _

/-- A decoded word is run (R62). -/
theorem runWord_ok {w : CommandWord} {s : State} {i : Instr} (h : decodeWord w = .ok i) : runWord w s = exec i s := by
  simp only [runWord, h]

/-- All that a latched word can do when the block goes on: the decoded command runs, or ERR_ILLEGAL is answered. -/
theorem runWord_next {w : CommandWord} {s t : State} (h : runWord w s = .next t) :
    (∃ i, decodeWord w = .ok i ∧ exec i s = .next t) ∨
    (s.cfg.legal = true ∧ t = s.respond .errIllegal false 0 0x00#8) := by
  unfold runWord at h
  split at h
  · next i hi => exact .inl ⟨i, hi, h⟩
  · exact .inr (command_next h)

/-! ### Steps -/

/-- All that the block can do in one move when it goes on. -/
theorem blockMove_cases {s t : State} (h : blockMove s = .next t) :
    (s.ports.rst = true ∧ t = s.takeReset) ∨
    (s.ports.rst = false ∧ s.busy = true ∧ s.rspValid = true ∧ s.ports.rspReady = true ∧ t = s.deliver) ∨
    (s.ports.rst = false ∧ s.busy = true ∧ s.rspValid = true ∧ s.ports.rspReady = false ∧ t = s) ∨
    (s.ports.rst = false ∧ s.busy = true ∧ s.rspValid = false ∧ s.cursorInRange = true ∧ t = s.runSequence) ∨
    (s.ports.rst = false ∧ s.busy = false ∧ s.ports.cmdIn = [] ∧ t = s) ∨
    (s.ports.rst = false ∧ s.busy = false ∧ ∃ w rest, s.ports.cmdIn = w :: rest ∧ runWord w (s.latch w rest) = .next t) := by
  unfold blockMove resume at h
  cases hrst : s.ports.rst <;> cases hb : s.busy <;> cases hv : s.rspValid <;> simp only [hrst, hb, hv, if_true, if_false,
    Bool.false_eq_true] at h
  case false.true.true => cases hy : s.ports.rspReady <;> simp_all
  case false.true.false => cases hc : s.cursorInRange <;> simp_all
  case false.false.true => cases hq : s.ports.cmdIn <;> simp_all
  case false.false.false => cases hq : s.ports.cmdIn <;> simp_all
  all_goals simp_all

/-- A step that goes on is one of a legal block: the outside's next event lands, and the block moves. -/
theorem step_next {s t : State} (h : step s = .next t) : s.cfg.legal = true ∧ blockMove s.takeEvent = .next t := by
  unfold step portStep at h
  cases hl : s.cfg.legal <;> simp_all

/-- A step of a legal block is its move after the outside's next event. -/
theorem step_legal {s : State} (hl : s.cfg.legal = true) : step s = blockMove s.takeEvent := by
  simp [step, portStep, hl]

end Sys2Proof.Machine
end

