-- ==== Sys2Proof/Tests/Slice0.lean ====
section
/-! SUPPORT. Tests: ill-formed terms are refused, words written out from the spec's encodings decode, one-step tests with the
results of spec/95_test_vectors.md, and for each statement a state that meets its hypotheses. -/

namespace Sys2Proof.Tests

open Sys2Proof Sys2Proof.Machine

/-! ### WellFormed: each check refuses an ill-formed term (spec/30_encoding.md R60; spec/00_scope.md R6, R7) -/

theorem test_wf_x_too_wide : (Instr.setPixel 65536 0 0).wf = false := by decide
theorem test_wf_y_too_wide : (Instr.setPixel 0 65536 0).wf = false := by decide
theorem test_wf_colour_too_wide : (Instr.setPixel 0 0 256).wf = false := by decide
theorem test_wf_getPixel_too_wide : (Instr.getPixel 65536 0).wf = false ∧ (Instr.getPixel 0 65536).wf = false := by decide
theorem test_wf_decode_too_wide : (Instr.decode 65536 0).wf = false ∧ (Instr.decode 0 65536).wf = false := by decide
theorem test_wf_index_too_wide : (Instr.readByte 65536).wf = false := by decide
theorem test_wf_field_maximum : (Instr.setPixel 65535 65535 255).wf = true := by decide

/-- `Config.default` with another geometry. -/
def geometry (w h : Nat) : Config := { Config.default with width := w, height := h }

theorem test_config_no_columns : (geometry 0 64).legal = false := by decide
theorem test_config_too_wide : (geometry 257 64).legal = false := by decide
theorem test_config_half_page : (geometry 128 60).legal = false := by decide
theorem test_config_no_pages : (geometry 128 0).legal = false := by decide
theorem test_config_too_many_pages : (geometry 128 72).legal = false := by decide
theorem test_config_corners : (geometry 1 8).legal = true ∧ (geometry 256 64).legal = true := by decide
theorem test_wrapWidth_zero : ({ HostParams.default with wrapWidth := 0 } : HostParams).legal = false := by decide
theorem test_wrapWidth_too_wide : ({ HostParams.default with wrapWidth := 65536 } : HostParams).legal = false := by decide

/-! ### Decode: words of the spec (spec/95_test_vectors.md 2.1-2.6), and the table's own bits (R63) -/

theorem test_decode_nop : decodeWord 0x00FFFFFFFFFF#48 = .ok .nop := by decide
theorem test_decode_clear : decodeWord 0x10FFFFFFFFFF#48 = .ok .clear := by decide
theorem test_decode_setPixel : decodeWord 0x20007F003F01#48 = .ok (.setPixel 127 63 1) := by decide
/-- Bit by bit: OP 0010, RSV 0000, X 5, Y 10, C 1. -/
theorem test_decode_setPixel_bits :
    decodeWord 0b001000000000000000000101000000000000101000000001#48 = .ok (.setPixel 5 10 1) := by decide
theorem test_decode_getPixel : decodeWord 0x3000C8000000#48 = .ok (.getPixel 200 0) := by decide
theorem test_decode_decode : decodeWord 0x400040002100#48 = .ok (.decode 64 33) := by decide
theorem test_decode_readByte : decodeWord 0x5003FF000000#48 = .ok (.readByte 1023) := by decide
theorem test_decode_readByte_ignores_y_and_c : decodeWord 0x500000123456#48 = .ok (.readByte 0) := by decide
theorem test_decode_init : decodeWord 0x600000000000#48 = .ok .init := by decide
theorem test_decode_update : decodeWord 0x700000000000#48 = .ok .update := by decide
theorem test_decode_rsv_first : decodeWord 0xFF0000000000#48 = .error .reservedBits := by decide
theorem test_decode_reserved_opcode :
    decodeWord 0x800000000000#48 = .error .reservedOpcode ∧ decodeWord 0xF00000000000#48 = .error .reservedOpcode := by decide
/-- The examples of R74. -/
theorem test_encode_examples :
    encode (.setPixel 1 9 1) = 0x200001000901#48 ∧ encode .update = 0x700000000000#48 ∧
      encode (.readByte 1023) = 0x5003FF000000#48 := by decide
theorem test_asm : (Instr.setPixel 5 10 1).asm = "SET_PIXEL 5, 10, 1" := by decide
theorem test_decodeTableWord : decodeTableWord 48 0x400005000A00 = some (.decode 5 10) := by decide
theorem test_decodeTableWord_illegal : decodeTableWord 48 0x800000000000 = none := by decide

/-! ### One-step tests -/

/-- The 8 x 16 geometry of the test vectors, every other parameter at its default. -/
def config8x16 : Config := geometry 8 16

/-- A block of geometry `c`, in state `ctrl`, idle and free, with the written bytes `fb`. -/
def block (c : Config) (ctrl : CtrlState) (fb : Memory) : State :=
  { State.atReset c 0 with ctrl := ctrl, fb := fb, seq := ⟨.idle, 0, 0, 0, 0⟩, cmd := 0#48, rsp := 0#32 }

/-- What a test looks at of a next state; nothing where there is none. -/
def look {α : Type} (f : State → α) (o : Host.Outcome State Fault Refusal) : Option α :=
  match o with
  | .next t => some (f t)
  | .fault _ => none
  | .refused _ => none

/-- One step on a word placed for it. -/
def run1 (s : State) (w : Nat) : Host.Outcome State Fault Refusal := step (s.withFetchWord 48 w)

/-- 128 x 64, READY, with the start of the vectors 2.2: `FB[133] = 0xAA`, `FB[1023] = 0x7F`. -/
def start : State := block Config.default .ready [(0, 0x00#8), (133, 0xAA#8), (1023, 0x7F#8)]

/-- Vector 2.5, row 2. -/
theorem test_nop : look (·.rsp) (run1 start 0x00FFFFFFFFFF) = some 0x00000000#32 := by decide
/-- Vector 2.5, row 3. -/
theorem test_nop_rsv : look (·.rsp) (run1 start 0x010000000000) = some 0x10000000#32 := by decide
/-- L1.4 and vector 2.5: every byte is 0 afterwards. -/
theorem test_clear : look (fun t => (t.rsp, (List.range 16).map t.fbByte)) (run1 (block config8x16 .uninit []) 0x10FFFFFFFFFF) =
    some (0x00000000#32, List.replicate 16 0x00#8) := by decide
/-- Vector 2.2, row 1. -/
theorem test_setPixel : look (fun t => (t.rsp, t.fbByte 133, t.fbByte 0)) (run1 start 0x200005000A01) =
    some (0x080085AE#32, 0xAE#8, 0x00#8) := by decide
/-- Vector 2.2, rows 6 and 8: out of range is silent, and is not clamped. -/
theorem test_setPixel_outOfRange : look (fun t => (t.rsp, t.fb)) (run1 start 0x200080000001) = some (0x00000000#32, start.fb) ∧
    look (fun t => (t.rsp, t.fb)) (run1 start 0x20FFFFFFFF01) = some (0x00000000#32, start.fb) := by decide
/-- Vector 2.3 on the byte 0xAA: bit 1 is on and bit 2 is off. -/
theorem test_getPixel : look (·.rsp) (run1 start 0x300005000900) = some 0x08008501#32 ∧
    look (·.rsp) (run1 start 0x300005000A00) = some 0x08008500#32 := by decide
/-- Vector 2.3, row 3. -/
theorem test_getPixel_outOfRange : look (·.rsp) (run1 start 0x3000C8000000) = some 0x00000000#32 := by decide
/-- Vectors 2.1: pixel (64, 33), and the last pixel. -/
theorem test_decode : look (·.rsp) (run1 start 0x400040002100) = some 0x08024002#32 ∧
    look (·.rsp) (run1 start 0x40007F003F00) = some 0x0803FF80#32 := by decide
/-- Vectors 2.1: only `y` is out of range. -/
theorem test_decode_outOfRange : look (·.rsp) (run1 start 0x40007F004000) = some 0x00000000#32 := by decide
/-- Vector 2.4: the last index. -/
theorem test_readByte : look (·.rsp) (run1 start 0x5003FF000000) = some 0x0803FF7F#32 := by decide
/-- Vector 2.4: the index `BUF_LEN`, and the field maximum. -/
theorem test_readByte_unmapped : look (·.rsp) (run1 start 0x500400000000) = some 0x30000000#32 ∧
    look (·.rsp) (run1 start 0x50FFFF000000) = some 0x30000000#32 := by decide
/-- The payloads of the sink's log, each with its control byte. -/
def sent (t : State) : List (Byte × Byte) := t.txLog.map fun x => (x.ctrl, x.payload)
/-- P2: INIT in the 8 x 16 geometry emits 47 transactions; 22..31 of them are display on, the window, a page select and the
first zero bytes. -/
theorem test_init :
    look (fun t => (t.rsp, t.ctrl, t.txLog.length, ((sent t).drop 22).take 10)) (run1 (block config8x16 .uninit []) 0x600000000000) =
      some (0x00000000#32, .ready, 47,
        [(0x00#8, 0xAF#8), (0x00#8, 0x22#8), (0x00#8, 0x00#8), (0x00#8, 0xFF#8), (0x00#8, 0x21#8), (0x00#8, 0x00#8),
         (0x00#8, 0x07#8), (0x00#8, 0xB0#8), (0x40#8, 0x00#8), (0x40#8, 0x00#8)]) := by decide
/-- P5: a sink that accepts 3 transactions; the sequence waits and is not answered. -/
theorem test_init_stalled :
    look (fun t => (t.rspValid, t.ctrl, t.txLog.length, t.txOffer.map (·.payload)))
      (run1 { block config8x16 .uninit [] with ports := { Ports.quiet with txRoom := some 3 } } 0x600000000000) =
      some (false, .uninit, 3, some 0xA8#8) := by decide
/-- Vectors 2.6, the corner geometry 1 x 8 with `FB[0] = 0x5A`: 8 transactions. -/
theorem test_update :
    look (fun t => (t.rsp, t.ctrl, sent t)) (run1 (block (geometry 1 8) .ready [(0, 0x5A#8)]) 0x700000000000) =
      some (0x00000000#32, .ready,
        [(0x00#8, 0x22#8), (0x00#8, 0x00#8), (0x00#8, 0xFF#8), (0x00#8, 0x21#8), (0x00#8, 0x00#8), (0x00#8, 0x00#8),
         (0x00#8, 0xB0#8), (0x40#8, 0x5A#8)]) := by decide
/-- P3: UPDATE before INIT. -/
theorem test_update_uninit : look (fun t => (t.rsp, t.ctrl, t.txLog)) (run1 (block config8x16 .uninit []) 0x700000000000) =
    some (0x20000000#32, .uninit, []) := by decide
/-- A step from reset, with nothing placed, does nothing (R182). -/
theorem test_reset_idles : look (fun t => (t.busy, t.txLog, t.rspLog)) (step State.reset) = some (false, [], []) := by decide

/-! ### Host streams (spec/95_test_vectors.md 2.7) -/

theorem test_drawBitmap : drawBitmap 2 3 [0xA0#8, 0x40#8] 3 2 true = .ok [.setPixel 2 3 1, .setPixel 4 3 1, .setPixel 3 4 1] := by
  decide
theorem test_drawBitmap_off : drawBitmap 0 0 [0x80#8] 1 1 false = .ok [.setPixel 0 0 0] := by decide
theorem test_drawBitmap_short : drawBitmap 0 0 [0xFF#8] 8 2 true = .error .bitmapTooShort := by decide

/-- The test font: every character is `01 03 07 0F 7F`. -/
def font (_ : Byte) (col : Fin 5) : Byte := [0x01#8, 0x03#8, 0x07#8, 0x0F#8, 0x7F#8].getD col.val 0x00#8

/-- The wrap happens before the first glyph at column 124, and not at 123. -/
theorem test_drawString_wraps :
    (drawString HostParams.default font 124 0 [0x41#8]).map (·.head?) = .ok (some (.setPixel 0 8 1)) ∧
    (drawString HostParams.default font 123 0 [0x41#8]).map (·.head?) = .ok (some (.setPixel 123 0 1)) := by decide
theorem test_drawString_length : (drawString HostParams.default font 0 0 [0x41#8]).map (·.length) = .ok 35 := by decide
/-- R6: the legal values of `WRAP_WIDTH` are 1..65535. -/
theorem test_drawString_illegal :
    drawString { HostParams.default with wrapWidth := 0 } font 0 0 [0x41#8] = .error .illegalWrapWidth ∧
    drawString { HostParams.default with wrapWidth := 65536 } font 0 0 [] = .error .illegalWrapWidth := by decide
/-- Radius 0: 63 copies; a negative point issues nothing. -/
theorem test_drawCircle :
    drawCircle HostParams.default (fun xc yc _ _ => (xc, yc)) 3 4 0 = List.replicate 63 (.setPixel 3 4 1) ∧
    drawCircle HostParams.default (fun _ yc _ _ => (-5, yc)) 0 10 5 = [] := by decide

/-! ### Witnesses: for each statement with hypotheses, a state and operands that meet them, at the bounds of their ranges -/

/-- A next state with a property, from the test of it. -/
theorem next_of_look {o : Host.Outcome State Fault Refusal} {p : State → Bool} (h : look p o = some true) :
    ∃ t, o = .next t ∧ p t = true := by
  cases o with
  | next t => exact ⟨t, rfl, by simpa [look] using h⟩
  | fault r => simp [look] at h
  | refused r => simp [look] at h

/-- An idle block of the 8 x 16 geometry, before and after INIT. -/
def idle : State := block config8x16 .uninit [(11, 0xAA#8)]
def ready : State := block config8x16 .ready [(11, 0xAA#8)]

/-- Such a block with a word on its command port, with `rst` asserted, with a sink that accepts `n` transactions. -/
def offered (w : CommandWord) : State := { idle with ports := { Ports.quiet with cmdIn := [w] } }
def inReset : State := { ready with ports := { Ports.quiet with rst := true } }
def withRoom (s : State) (n : Nat) : State := { s with ports := { s.ports with txRoom := some n } }

/-- A block whose response is pending, and whether the host takes it. -/
def pending (hostReady : Bool) : State :=
  { ready with busy := true, rspValid := true, ports := { Ports.quiet with rspReady := hostReady } }

/-- An UPDATE that waits for the sink at its last data byte, and the room the sink has. -/
def waiting (room : Nat) : State :=
  { withRoom ready room with
    ctrl := .updating
    seq := ⟨.pageData, 22, 5, 1, 7⟩
    busy := true
    cmd := 0x700000000000#48
    txOffer := some (dataTx config8x16 (ready.fbByte 15)) }

/-- An illegal configuration. -/
def broken : State := block (geometry 257 64) .uninit []

theorem config8x16_legal : config8x16.legal = true := by decide

theorem waiting_inv (room : Nat) : (waiting room).Inv where
  legal := config8x16_legal
  fbCanonical := (show ready.fb.wf ready.cfg.bufLen = true by decide)
  cursor := (show (waiting 0).cursorInRange = true by decide)
  updating := by simp [waiting, SeqPhase.inTransfer]
  progress := ⟨fun _ => ⟨rfl, rfl⟩, fun _ => by simp [waiting]⟩
  pending := fun _ => rfl
  noWaitInClear := by simp [waiting]
  offer := rfl
  inProgress := fun _ => .inr ⟨show decodeWord 0x700000000000#48 = .ok .update by decide, rfl⟩
  txFramed := by simp [waiting, withRoom, ready, block, State.atReset]
  rspPendingFramed := by simp [waiting, withRoom, ready, block, State.atReset]
  rspLogFramed := by simp [waiting, withRoom, ready, block, State.atReset]

theorem offered_inv (w : CommandWord) : (offered w).Inv where
  legal := config8x16_legal
  fbCanonical := (show idle.fb.wf idle.cfg.bufLen = true by decide)
  cursor := (show idle.cursorInRange = true by decide)
  updating := by simp [offered, idle, block, SeqPhase.inTransfer]
  progress := by simp [offered, idle, block, State.atReset]
  pending := by simp [offered, idle, block, State.atReset]
  noWaitInClear := by simp [offered, idle, block]
  offer := rfl
  inProgress := by simp [offered, idle, block]
  txFramed := by simp [offered, idle, block, State.atReset]
  rspPendingFramed := by simp [offered, idle, block, State.atReset]
  rspLogFramed := by simp [offered, idle, block, State.atReset]

theorem witness_EncodeFollowsTheWordLayout : 65535 < 65536 ∧ 255 < 256 := by decide
theorem witness_DecodeOfEncodeIsTheCommand :
    (Instr.setPixel 65535 65535 255).wf = true ∧ (Instr.readByte 65535).wf = true ∧ Instr.update.wf = true := by decide
theorem witness_EncodeOfDecodeKeepsTheReadFields : decodeWord 0x5FFFFFFFFFFF#48 = .error .reservedBits ∧
    decodeWord 0x50FFFFFFFFFF#48 = .ok (.readByte 65535) ∧ decodeWord 0x70FFFFFFFFFF#48 = .ok .update := by decide
theorem witness_DecodingChecksRsvThenOpcode : rsvField 0xF10000000000#48 ≠ 0 ∧
    (rsvField 0x800000000000#48 = 0 ∧ opField 0x800000000000#48 = 8) ∧
    (rsvField 0xF00000000000#48 = 0 ∧ 8 ≤ opField 0xF00000000000#48) ∧
    (rsvField 0x700000000000#48 = 0 ∧ opField 0x700000000000#48 = 7) := by decide
theorem witness_OpcodeTableRowsDecideTheCommand :
    (⟨"NOP", 0x000000000000#48, 0xFF0000000000#48⟩ : OpcodeRow) ∈ opcodeTable ∧
    OpcodeRow.holds ⟨"NOP", 0x000000000000#48, 0xFF0000000000#48⟩ 0x00FFFFFFFFFF#48 = true := by decide
theorem witness_ResponseWordHasItsFields : 65535 < 65536 := by decide

theorem witness_StepRunsTheDecodedCommand : (offered 0x20007F003F01#48).cfg.legal = true ∧
    (offered 0x20007F003F01#48).busy = false ∧ (offered 0x20007F003F01#48).takeEvent.ports.rst = false ∧
    (offered 0x20007F003F01#48).takeEvent.ports.cmdIn = [0x20007F003F01#48] ∧
    decodeWord 0x20007F003F01#48 = .ok (.setPixel 127 63 1) := by decide
theorem witness_PlacedWordIsRunByTheNextStep :
    (pending false).cfg.legal = true ∧ decodeWord 0x700000000000#48 = .ok .update := by decide
theorem witness_IllegalWordIsAnsweredErrIllegal (w : CommandWord) : (offered w).cfg.legal = true ∧
    (offered w).busy = false ∧ (offered w).takeEvent.ports.rst = false ∧ (offered w).takeEvent.ports.cmdIn = [w] :=
  ⟨config8x16_legal, rfl, rfl, rfl⟩
theorem witness_IllegalWordIsAnsweredErrIllegal_words :
    rsvField 0x010000000000#48 ≠ 0 ∧ opField 0x800000000000#48 = 8 ∧ opField 0xF00000000000#48 = 15 := by decide
theorem witness_IllegalConfigurationIsRefused : broken.cfg.legal = false := by decide
theorem witness_ResponseIsHeldUntilTheHostAcceptsIt (r : Bool) : (pending r).cfg.legal = true ∧ (pending r).busy = true ∧
    (pending r).rspValid = true ∧ (pending r).takeEvent.ports.rst = false ∧ (pending r).takeEvent.ports.rspReady = r :=
  ⟨config8x16_legal, rfl, rfl, rfl, rfl⟩
theorem witness_BusyBlockAcceptsNoCommand : (pending false).busy = true ∧ (pending false).takeEvent.ports.rst = false ∧
    ∃ t, step (pending false) = .next t ∧ t.busy = true := ⟨rfl, rfl, next_of_look (by decide)⟩
theorem witness_FreeBlockDoesNothingOnItsOwn : idle.cfg.legal = true ∧ idle.busy = false ∧
    idle.takeEvent.ports.rst = false ∧ idle.takeEvent.ports.cmdIn = [] := by decide
theorem witness_SequenceWaitsForTheSink : (waiting 0).Inv ∧ (waiting 0).seq.phase ≠ .idle ∧
    (waiting 0).takeEvent.ports.rst = false ∧ (waiting 0).takeEvent.ports.txRoom = some 0 :=
  ⟨waiting_inv 0, by decide, rfl, rfl⟩
theorem witness_ResetTakesTheResetValues : inReset.cfg.legal = true ∧ inReset.takeEvent.ports.rst = true := by decide
theorem witness_ResetRedrawsTheFramebuffer : inReset.cfg.legal = true ∧ inReset.takeEvent.ports.rst = true := by decide
theorem witness_OnlyResetReturnsToUninit : ∃ t, step inReset = .next t ∧ (t.ctrl == .uninit) = true :=
  next_of_look (by decide)
theorem witness_OnlyResetReturnsToUninit_already : ∃ t, step idle = .next t ∧ (t.ctrl == .uninit) = true :=
  next_of_look (by decide)

/-- For the decoding clause of each command's statement: a word with its opcode, with RSV 0 and not 0. -/
theorem witness_opcodes : ∀ k : Fin 8, opField (BitVec.ofNat 48 (k.val <<< 44)) = k.val ∧
    rsvField (BitVec.ofNat 48 (k.val <<< 44)) = 0 ∧ opField (BitVec.ofNat 48 (k.val <<< 44 ||| 1 <<< 40)) = k.val ∧
    rsvField (BitVec.ofNat 48 (k.val <<< 44 ||| 1 <<< 40)) ≠ 0 := by decide
theorem witness_NopOnlyResponds : idle.cfg.legal = true := by decide
theorem witness_ClearZeroesTheFramebuffer : idle.cfg.legal = true ∧ 15 < idle.cfg.bufLen := by decide
theorem witness_SetPixelWritesOneBitOfOneByte : idle.cfg.legal = true ∧ (7 < idle.cfg.width ∧ 15 < idle.cfg.height) ∧
    ¬(8 < idle.cfg.width ∧ 15 < idle.cfg.height) ∧ ¬(7 < idle.cfg.width ∧ 16 < idle.cfg.height) := by decide
theorem witness_GetPixelReadsOneBit : idle.cfg.legal = true ∧ (7 < idle.cfg.width ∧ 15 < idle.cfg.height) ∧
    ¬(8 < idle.cfg.width ∧ 15 < idle.cfg.height) ∧ ¬(7 < idle.cfg.width ∧ 16 < idle.cfg.height) := by decide
theorem witness_ReadByteReturnsTheByteOrErrRange : idle.cfg.legal = true ∧ 15 < idle.cfg.width * (idle.cfg.height / 8) ∧
    idle.cfg.width * (idle.cfg.height / 8) ≤ 16 := by decide
theorem witness_GeometryErrorsAreSilent : idle.cfg.legal = true ∧ idle.cfg.width ≤ 8 ∧ idle.cfg.height ≤ 16 := by decide
theorem witness_SetPixelKeepsEveryOtherPixel : idle.cfg.legal = true ∧ 7 < idle.cfg.width ∧ 15 < idle.cfg.height ∧
    ((7, 14) : Nat × Nat) ≠ (7, 15) := by decide
theorem witness_SetThenClearKeepsTheOtherBits : idle.cfg.legal = true ∧ 7 < idle.cfg.width ∧ 15 < idle.cfg.height := by
  decide
theorem witness_SettingEveryPixelFillsTheFramebuffer : idle.cfg.legal = true ∧ ∀ x y, x < idle.cfg.width → y < idle.cfg.height →
    (x, y) ∈ (List.range 8).flatMap fun x => (List.range 16).map fun y => (x, y) :=
  ⟨rfl, fun x y hx hy =>
    List.mem_flatMap.mpr ⟨x, List.mem_range.mpr hx, List.mem_map.mpr ⟨y, List.mem_range.mpr hy, rfl⟩⟩⟩
theorem witness_SetThenGetReturnsTheColour : idle.cfg.legal = true ∧ 7 < idle.cfg.width ∧ 15 < idle.cfg.height := by decide
theorem witness_DecodeRespondsTheDecoderOutput : idle.cfg.legal = true := by decide
theorem witness_AddressDecoderLaws : config8x16.legal = true ∧ (addrDecode config8x16 7 15).inr = true ∧
    15 < config8x16.bufLen ∧ 7 < config8x16.width ∧ 1 < config8x16.pageCount := by decide
theorem witness_AddressDecoderInverse : config8x16.legal = true ∧ 15 < config8x16.bufLen := by decide
theorem witness_OneDecoderForThreeCommands : idle.cfg.legal = true ∧
    rspInr (rspWord .ok true 15 0x80#8) = true ∧ addrDecode idle.cfg 7 15 = ⟨true, 15, 0x80#8⟩ := by decide

theorem witness_InitEmitsTheTableThenATransferOfZeros : idle.cfg.legal = true ∧
    (withRoom idle 47).roomFor (23 + idle.cfg.transferLen) = true ∧ 15 < idle.cfg.bufLen := by decide
theorem witness_UpdateSendsTheWholeFramebuffer : ready.cfg.legal = true ∧ ready.ctrl ≠ .uninit ∧
    (withRoom ready 24).roomFor ready.cfg.transferLen = true ∧ idle.cfg.legal = true ∧ idle.ctrl = .uninit := by decide
theorem witness_ErrStateIsUpdateBeforeInit : idle.cfg.legal = true ∧ idle.ctrl = .uninit ∧ idle.rspValid = false ∧
    ∃ t, runWord 0x700000000000#48 idle = .next t ∧ (t.rspValid && rspStatus t.rsp == 2#4) = true :=
  ⟨rfl, rfl, rfl, next_of_look (by decide)⟩
theorem witness_ErrRangeIsReadByteOfAnUnmappedIndex : idle.cfg.legal = true ∧ idle.cfg.bufLen ≤ 16 ∧
    idle.rspValid = false ∧ ∃ t, runWord 0x500010000000#48 idle = .next t ∧ (t.rspValid && rspStatus t.rsp == 3#4) = true :=
  ⟨rfl, by decide, rfl, next_of_look (by decide)⟩
theorem witness_TransactionCountsAndPositions : ready.cfg.legal = true ∧ ready.ctrl ≠ .uninit ∧
    (withRoom ready 24).roomFor ready.cfg.transferLen = true ∧ (withRoom ready 47).roomFor (23 + ready.cfg.transferLen) = true ∧
    1 < ready.cfg.pageCount ∧ 7 < ready.cfg.width := by decide
theorem witness_StalledSequenceHasEmittedAPrefix : (withRoom ready 46).cfg.legal = true ∧
    (withRoom ready 46).ports.txRoom = some 46 ∧ 46 < 23 + ready.cfg.transferLen ∧
    (withRoom ready 23).ports.txRoom = some 23 ∧ ready.ctrl ≠ .uninit ∧ 23 < ready.cfg.transferLen := by decide
theorem witness_ResumedSequenceGoesOnWhereItStopped : (waiting 1).Inv ∧ (waiting 1).seq.phase ≠ .idle ∧
    (waiting 1).takeEvent.ports.rst = false ∧ ∃ t, step (waiting 1) = .next t ∧ (t.seq.phase == .idle) = true :=
  ⟨waiting_inv 1, by decide, rfl, next_of_look (by decide)⟩
theorem witness_ResumedSequenceGoesOnWhereItStopped_waits : ∃ t, step (waiting 0) = .next t ∧ (t.seq.phase != .idle) = true :=
  next_of_look (by decide)
theorem witness_ResetCutsASequenceShort : (withRoom ready 23).cfg.legal = true ∧
    (withRoom ready 23).ports.txRoom = some 23 ∧ ready.ctrl ≠ .uninit ∧ 23 < (transferTxs (withRoom ready 23)).length ∧
    23 < (initSequenceTxs (withRoom ready 23)).length := by decide
theorem witness_UpdateTwiceSendsTheSame : ready.cfg.legal = true ∧ ready.ctrl ≠ .uninit ∧ ready.ports.txRoom = none := by
  decide

theorem witness_ErrorsArePrecise : idle.rspValid = false ∧
    ∃ t, runWord 0x810000000000#48 idle = .next t ∧ (t.rspValid && rspStatus t.rsp != 0#4) = true :=
  ⟨rfl, next_of_look (by decide)⟩
theorem witness_OnlyInitAndUpdateDriveTheSequencer : ∃ t, exec .clear idle = .next t ∧ t.rspValid = true :=
  next_of_look (by decide)
theorem witness_OnlyClearSetPixelAndInitWriteTheFramebuffer : ∃ t, exec .update ready = .next t ∧ t.rspValid = true :=
  next_of_look (by decide)
theorem witness_CommandsLeaveTheRestAlone : ∃ t, exec .init idle = .next t ∧ t.rspValid = true := next_of_look (by decide)
theorem witness_NoCommandStopsALegalBlock : idle.cfg.legal = true := by decide
theorem witness_HistoriesOnlyGrow : ∃ t, step (pending true) = .next t ∧ (t.rspLog.length == 1) = true :=
  next_of_look (by decide)
theorem witness_EveryStepKeepsTheInvariant : (offered 0x600000000000#48).Inv ∧
    ∃ t, step (offered 0x600000000000#48) = .next t ∧ (t.txLog.length == 47) = true :=
  ⟨offered_inv _, next_of_look (by decide)⟩
theorem witness_TheBlockNeverStops : (waiting 0).Inv ∧ (offered 0x800000000000#48).Inv := ⟨waiting_inv 0, offered_inv _⟩

theorem witness_DrawBitmapOnlySetsAndIsIdempotent : idle.cfg.legal = true ∧
    drawBitmap 6 15 [0xE0#8] 3 1 true = .ok [.setPixel 6 15 1, .setPixel 7 15 1, .setPixel 8 15 1] ∧
    7 < idle.cfg.width ∧ 15 < idle.cfg.height := by decide
theorem witness_DrawGlyphOverwritesItsCell : idle.cfg.legal = true ∧ 7 < idle.cfg.width ∧ 15 < idle.cfg.height ∧
    7 = 3 + (4 : Fin 5).val ∧ 15 = 9 + 6 ∧ 7 < 8 := by decide
theorem witness_StringWrapsBeforeAGlyph : HostParams.default.legal = true ∧
    ({ HostParams.default with wrapWidth := 65536 } : HostParams).legal = false ∧
    HostParams.default.wrapWidth ≤ 124 + 4 ∧ 123 + 4 < HostParams.default.wrapWidth ∧
    HostParams.default.wrapReturn = .zero ∧ ({ HostParams.default with wrapReturn := .origin } : HostParams).legal = true ∧
    ({ HostParams.default with wrapReturn := .origin } : HostParams).wrapReturn = .origin := by decide
theorem witness_StreamsAreEncodableSetPixels :
    drawBitmap 65535 65535 [0xC0#8] 2 1 false = .ok [.setPixel 65535 65535 0] ∧
    (drawString HostParams.default font 120 0 [0x41#8]).map (·.contains (.setPixel 124 6 1)) = .ok true ∧
    .setPixel 65535 0 1 ∈ drawCircle HostParams.default (fun xc yc _ _ => (xc, yc)) 65535 0 0 := by decide
theorem witness_ShortBitmapsAreRefusedAndEmptyDrawsIssueNothing : [0xFF#8].length < 2 * ((8 + 7) / 8) ∧
    HostParams.default.legal = true := by decide

end Sys2Proof.Tests
end

section
/-! The scope's refusals and parameters: an illegal configuration (spec/00_scope.md R7) and the wrap of a string (R6,
spec/43_host_primitives.md R143, R144). -/

namespace Sys2Proof.Machine

open Sys2Proof

/-- An illegal configuration gives a step no meaning (R7). -/
theorem step_illegalConfiguration {s : State} (hl : s.cfg.legal = false) : step s = .refused .illegalConfiguration := by
  simp [step, portStep, hl]

/-- An illegal configuration gives a command no meaning (R7). -/
theorem exec_illegalConfiguration (i : Instr) {s : State} (hl : s.cfg.legal = false) :
    exec i s = .refused .illegalConfiguration := by
  rcases exec_total i s with ⟨hlegal, -⟩ | ⟨-, hrefused⟩
  · simp [hl] at hlegal
  · exact hrefused

/-- Settles O11: R7's conditions are those of `legal_iff`, and a command and a step are each refused outside them. -/
theorem illegalConfigurationIsRefused : Obligations.IllegalConfigurationIsRefused := by
  unfold Obligations.IllegalConfigurationIsRefused
  refine ⟨fun c => ?_, fun i s hl => ⟨exec_illegalConfiguration i hl, step_illegalConfiguration hl⟩⟩
  rw [legal_iff, Config.pageCount, and_assoc]

/-- What R6 asks of a legal `WRAP_WIDTH`. -/
theorem hostParams_legal_iff (hp : HostParams) : hp.legal = true ↔ 1 ≤ hp.wrapWidth ∧ hp.wrapWidth ≤ 65535 := by
  simp [HostParams.legal]

/-- A legal `WRAP_WIDTH` draws the glyphs of the text from its origin. -/
theorem drawString_legal {hp : HostParams} (hl : hp.legal = true) (font : Byte → Fin 5 → Byte) (px py : Nat)
    (text : List Byte) : drawString hp font px py text = .ok (drawGlyphs hp font px px py text) := by
  rcases drawString_cases hp font px py text with ⟨-, hok⟩ | ⟨hillegal, -⟩
  · exact hok
  · simp [hl] at hillegal

/-- An illegal `WRAP_WIDTH` is refused, whatever the text. -/
theorem drawString_illegal {hp : HostParams} (hl : hp.legal = false) (font : Byte → Fin 5 → Byte) (px py : Nat)
    (text : List Byte) : drawString hp font px py text = .error .illegalWrapWidth := by
  rcases drawString_cases hp font px py text with ⟨hlegal, -⟩ | ⟨-, hrefused⟩
  · simp [hl] at hlegal
  · exact hrefused

/-- A glyph whose last column is at or beyond `WRAP_WIDTH` goes 8 pixels down to column 0 (R144). -/
theorem wrapCursor_zero {hp : HostParams} {cx : Nat} (hw : hp.wrapWidth ≤ cx + 4) (hr : hp.wrapReturn = .zero)
    (px cy : Nat) : wrapCursor hp px cx cy = (0, cy + 8) := by
  simp [wrapCursor, hw, hr]

/-- A glyph whose last column is at or beyond `WRAP_WIDTH` goes 8 pixels down to the string's own column (R144). -/
theorem wrapCursor_origin {hp : HostParams} {cx : Nat} (hw : hp.wrapWidth ≤ cx + 4) (hr : hp.wrapReturn = .origin)
    (px cy : Nat) : wrapCursor hp px cx cy = (px, cy + 8) := by
  simp [wrapCursor, hw, hr]

/-- A glyph that ends before `WRAP_WIDTH` does not wrap (R144). -/
theorem wrapCursor_fits {hp : HostParams} {cx : Nat} (hw : cx + 4 < hp.wrapWidth) (px cy : Nat) :
    wrapCursor hp px cx cy = (cx, cy) := by
  simp [wrapCursor, Nat.not_le.mpr hw]

/-- A glyph is drawn where the wrap puts it, and the rest of the text 6 pixels further on (R143). -/
theorem drawGlyphs_cons_of_wrapCursor {hp : HostParams} {px cx cy x y : Nat} (h : wrapCursor hp px cx cy = (x, y))
    (font : Byte → Fin 5 → Byte) (ch : Byte) (rest : List Byte) :
    drawGlyphs hp font px cx cy (ch :: rest) = drawGlyph (font ch) x y ++ drawGlyphs hp font px (x + 6) y rest := by
  simp [drawGlyphs, h]

/-- Settles O54: the refusal is a case of `drawString_cases`, and each place of a glyph is a case of the wrap. -/
theorem stringWrapsBeforeAGlyph : Obligations.StringWrapsBeforeAGlyph := by
  unfold Obligations.StringWrapsBeforeAGlyph
  refine ⟨fun hp font px py text => ⟨hostParams_legal_iff hp, fun hl => drawString_illegal hl font px py text,
    fun hl => drawString_legal hl font px py text⟩, fun hp font px cx cy ch rest _ => ⟨?zero, ?origin, ?fits⟩, rfl, rfl⟩
  case zero =>
    intro hw hr
    exact drawGlyphs_cons_of_wrapCursor (wrapCursor_zero hw hr px cy) font ch rest
  case origin =>
    intro hw hr
    exact drawGlyphs_cons_of_wrapCursor (wrapCursor_origin hw hr px cy) font ch rest
  case fits =>
    intro hw
    exact drawGlyphs_cons_of_wrapCursor (wrapCursor_fits hw px cy) font ch rest

end Sys2Proof.Machine
end

section
/-! Reset (spec/10_state.md R33, spec/70_reset_and_hazards.md R180) and the invariant: every step keeps `State.Inv`. A state
is either free, or answered and waiting for the host, or in a sequence; each move of the block leads to one of the three, and
`State.CoreInv` is what the three share. -/

namespace Sys2Proof.Machine

open Sys2Proof

/-! ### The part of the invariant that every place of a command shares -/

/-- What of the invariant speaks of the data and of the two histories, and not of the command in progress. -/
structure State.CoreInv (s : State) : Prop where
  legal : s.cfg.legal = true
  fbCanonical : s.fb.wf s.cfg.bufLen = true
  cursor : s.cursorInRange = true
  updating : s.ctrl = .updating ↔ s.seq.phase.inTransfer = true
  txFramed : ∀ t ∈ s.txLog, t.framed s.cfg
  rspLogFramed : ∀ e ∈ s.rspLog, rspFramed e.rsp

theorem State.Inv.core {s : State} (h : s.Inv) : s.CoreInv where
  legal := h.legal
  fbCanonical := h.fbCanonical
  cursor := h.cursor
  updating := h.updating
  txFramed := h.txFramed
  rspLogFramed := h.rspLogFramed

/-- With no sequence in progress there is no transaction at the cursor. -/
theorem seqTx_idle {s : State} (hi : s.seq.phase = .idle) : s.seqTx = none := by
  simp [State.seqTx, hi]

/-- A free block meets the invariant: no command in progress, no response pending, nothing offered. -/
theorem State.CoreInv.inv_of_free {s : State} (h : s.CoreInv) (hi : s.seq.phase = .idle) (hb : s.busy = false)
    (hv : s.rspValid = false) (ho : s.txOffer = none) : s.Inv where
  legal := h.legal
  fbCanonical := h.fbCanonical
  cursor := h.cursor
  updating := h.updating
  progress := by simp [hi, hb]
  pending := by simp [hv]
  noWaitInClear := by simp [hi]
  offer := ho.trans (seqTx_idle hi).symm
  inProgress := fun hne => absurd hi hne
  txFramed := h.txFramed
  rspPendingFramed := by simp [hv]
  rspLogFramed := h.rspLogFramed

/-- A block whose command has been answered meets the invariant: busy until the host accepts the response. -/
theorem State.CoreInv.inv_of_answered {s : State} (h : s.CoreInv) (hi : s.seq.phase = .idle) (hb : s.busy = true)
    (hv : s.rspValid = true) (hr : rspFramed s.rsp) (ho : s.txOffer = none) : s.Inv where
  legal := h.legal
  fbCanonical := h.fbCanonical
  cursor := h.cursor
  updating := h.updating
  progress := by simp [hi, hv]
  pending := fun _ => hb
  noWaitInClear := by simp [hi]
  offer := ho.trans (seqTx_idle hi).symm
  inProgress := fun hne => absurd hi hne
  txFramed := h.txFramed
  rspPendingFramed := fun _ => hr
  rspLogFramed := h.rspLogFramed

/-- An idle sequencer is within the invariant in any `CTRL_STATE` but UPDATING. -/
theorem updating_iff_of_idle {s : State} (hc : s.ctrl ≠ .updating) (hi : s.seq.phase = .idle) :
    s.ctrl = .updating ↔ s.seq.phase.inTransfer = true := by
  simp [hc, hi, SeqPhase.inTransfer]

/-! ### The outside's event, and reset -/

/-- An event of the outside changes the input ports only. -/
theorem takeEvent_eq (s : State) : s.takeEvent = { s with ports := s.takeEvent.ports } := by
  unfold State.takeEvent
  split <;> rfl

/-- The invariant says nothing of the input ports. -/
theorem State.Inv.takeEvent_inv {s : State} (h : s.Inv) : s.takeEvent.Inv := by
  rw [takeEvent_eq]
  exact { h with }

/-- The cursor that reset draws is within its ranges (log entry 3). -/
theorem cursorInRange_atReset {c : Config} (hl : c.legal = true) (n : Nat) : (State.atReset c n).cursorInRange = true := by
  obtain ⟨hw, -, -, hp, -⟩ := (legal_iff c).mp hl
  exact (cursorInRange_iff _).mpr
    ⟨Nat.mod_lt _ (by decide), Nat.zero_lt_succ 5, Nat.mod_lt _ hp, Nat.mod_lt _ hw⟩

theorem cursorInRange_takeReset {s : State} (hl : s.cfg.legal = true) : s.takeReset.cursorInRange = true :=
  cursorInRange_atReset hl (s.resets + 1)

/-- The reset values meet the invariant, for every value of the draws. -/
theorem atReset_inv {c : Config} (hl : c.legal = true) (n : Nat) : (State.atReset c n).Inv :=
  have core : (State.atReset c n).CoreInv :=
    { legal := hl
      fbCanonical := Memory.wf_nil _
      cursor := cursorInRange_atReset hl n
      updating := updating_iff_of_idle (by simp [State.atReset]) rfl
      txFramed := by simp [State.atReset]
      rspLogFramed := by simp [State.atReset] }
  core.inv_of_free rfl rfl rfl rfl

/-- Settles O49: the default configuration is legal. -/
theorem resetMeetsTheInvariant : Obligations.ResetMeetsTheInvariant := by
  unfold Obligations.ResetMeetsTheInvariant
  exact atReset_inv (by decide) 0

/-- Taking reset leads to the invariant: the reset values, with the histories as they were. -/
theorem State.CoreInv.takeReset_inv {s : State} (h : s.CoreInv) : s.takeReset.Inv :=
  have core : s.takeReset.CoreInv :=
    { legal := h.legal
      fbCanonical := Memory.wf_nil _
      cursor := cursorInRange_takeReset h.legal
      updating := updating_iff_of_idle (by simp) rfl
      txFramed := h.txFramed
      rspLogFramed := h.rspLogFramed }
  core.inv_of_free rfl rfl rfl rfl

/-! ### Delivering a response -/

/-- A pending response is one of no sequence in progress. -/
theorem State.Inv.idle_of_rspValid {s : State} (h : s.Inv) (hv : s.rspValid = true) : s.seq.phase = .idle := by
  by_contra hne
  obtain ⟨-, hnone⟩ := h.progress.mp hne
  simp [hv] at hnone

/-- A block that is not busy has no sequence in progress. -/
theorem State.Inv.idle_of_free {s : State} (h : s.Inv) (hb : s.busy = false) : s.seq.phase = .idle := by
  by_contra hne
  obtain ⟨hbusy, -⟩ := h.progress.mp hne
  simp [hb] at hbusy

/-- Nothing is offered to the sink while the sequencer is IDLE. -/
theorem State.Inv.offer_none {s : State} (h : s.Inv) (hi : s.seq.phase = .idle) : s.txOffer = none :=
  h.offer.trans (seqTx_idle hi)

/-- Delivering a pending response keeps the invariant: it joins the history framed, and the block is free. -/
theorem State.Inv.deliver_inv {s : State} (h : s.Inv) (hv : s.rspValid = true) : s.deliver.Inv :=
  have hi := h.idle_of_rspValid hv
  have core : s.deliver.CoreInv :=
    { h.core with
      rspLogFramed := fun e he => by
        rcases List.mem_append.mp he with hold | hnew
        · exact h.rspLogFramed e hold
        · rw [List.mem_singleton.mp hnew]
          exact h.rspPendingFramed hv }
  core.inv_of_free hi rfl rfl (h.offer_none hi)

/-! ### A sequence in progress -/

/-- A command in progress whose sequence is at a place, with no response yet; whether a transaction is offered is left
open. -/
structure State.InSequence (s : State) : Prop extends s.CoreInv where
  notIdle : s.seq.phase ≠ .idle
  busy : s.busy = true
  noResponse : s.rspValid = false
  command : decodeWord s.cmd = .ok .init ∨ (decodeWord s.cmd = .ok .update ∧ s.seq.phase.inTransfer = true)

/-- A sequence to resume: a busy block without a response has one in progress. -/
theorem State.Inv.inSequence {s : State} (h : s.Inv) (hb : s.busy = true) (hv : s.rspValid = false) : s.InSequence :=
  have hne : s.seq.phase ≠ .idle := h.progress.mpr ⟨hb, hv⟩
  { h.core with notIdle := hne, busy := hb, noResponse := hv, command := h.inProgress hne }

/-- Where a sequence ends, all of it has been accepted framed, and its command is answered OK. -/
theorem State.InSequence.seqFinish_inv {s : State} (h : s.InSequence) : (seqFinish s).Inv :=
  have core : (seqFinish s).CoreInv :=
    { legal := h.legal
      fbCanonical := by
        cases hc : beforeClear s <;> simp [seqFinish, hc, h.fbCanonical, Memory.wf_fill]
      cursor := by
        obtain ⟨hk, hu, -, -⟩ := (cursorInRange_iff s).mp h.cursor
        obtain ⟨hw, -, -, hp, -⟩ := (legal_iff s.cfg).mp h.legal
        rw [cursorInRange_iff]
        refine ⟨?_, ?_, ?_, ?_⟩ <;> simp only [seqFinish]
        · split <;> omega
        · split <;> omega
        · omega
        · omega
      updating := updating_iff_of_idle (by simp [seqFinish]) rfl
      txFramed := fun t ht => (List.mem_append.mp ht).elim (h.txFramed t) seqRest_framed
      rspLogFramed := h.rspLogFramed }
  core.inv_of_answered rfl h.busy rfl (rspWord_framed _ _ _ _) rfl

/-- A sequence that waits after some transactions is UPDATING exactly when it has come to its transfer (R113). -/
theorem SeqStalled.updating {s t : State} {n : Nat} (hs : SeqStalled s n t)
    (h : s.ctrl = .updating ↔ s.seq.phase.inTransfer = true) : t.ctrl = .updating ↔ t.seq.phase.inTransfer = true := by
  rw [hs.ctrl]
  cases hT : s.seq.phase.inTransfer with
  | true =>
    have hforward := hs.forward (fun hph => by simp [hph, SeqPhase.inTransfer] at hT)
    simp [hforward, h.mpr hT]
  | false =>
    have hc : s.ctrl ≠ .updating := fun hc => by simp [h.mp hc] at hT
    cases t.seq.phase.inTransfer <;> simp [hc]

/-- Where a sequence waits for the sink, its next transaction is offered, and those before it have been accepted framed. -/
theorem State.InSequence.stalled_inv {s t : State} {n : Nat} (h : s.InSequence) (hs : SeqStalled s n t) : t.Inv where
  legal := by rw [hs.cfg]; exact h.legal
  fbCanonical := by
    rw [hs.cfg, hs.fb]
    split
    · exact Memory.wf_fill _ _
    · exact h.fbCanonical
  cursor := hs.cursor h.cursor
  updating := hs.updating h.updating
  progress := by simp [hs.notIdle, hs.busy, hs.rspValid, h.busy, h.noResponse]
  pending := fun _ => hs.busy.trans h.busy
  noWaitInClear := hs.notClear
  offer := hs.offer_eq (placeInRange_of_cursor (hs.cursor h.cursor))
  inProgress := fun _ => by
    rw [hs.cmd]
    refine h.command.imp_right fun ⟨hupdate, hT⟩ => ⟨hupdate, hs.forward fun hph => ?_⟩
    simp [hph, SeqPhase.inTransfer] at hT
  txFramed := fun tx htx => by
    rw [hs.txLog] at htx
    rw [hs.cfg]
    exact (List.mem_append.mp htx).elim (h.txFramed tx) fun hnew => seqRest_framed (List.mem_of_mem_take hnew)
  rspPendingFramed := by simp [hs.rspValid, h.noResponse]
  rspLogFramed := by rw [hs.rspLog]; exact h.rspLogFramed

/-- A run of a sequence, which ends it or waits for the sink, leads to the invariant. -/
theorem State.InSequence.runSequence_inv {s : State} (h : s.InSequence) : s.runSequence.Inv := by
  rcases runSequence_cases h.legal (placeInRange_of_cursor h.cursor) h.notIdle with ⟨-, hfin⟩ | ⟨n, -, -, hs⟩
  · rw [hfin]
    exact h.seqFinish_inv
  · exact h.stalled_inv hs

/-! ### An accepted command -/

/-- A command word has just been latched: the sequencer is IDLE, and there is no response yet. -/
structure State.Latched (s : State) : Prop extends s.CoreInv where
  idle : s.seq.phase = .idle
  busy : s.busy = true
  noResponse : s.rspValid = false
  noOffer : s.txOffer = none

theorem State.Inv.latch_latched {s : State} (h : s.Inv) (hb : s.busy = false) (w : CommandWord) (rest : List CommandWord) :
    (s.latch w rest).Latched :=
  have hi := h.idle_of_free hb
  { h.core with
    idle := hi
    busy := rfl
    noResponse := Bool.eq_false_iff.mpr fun hv => Bool.eq_false_iff.mp hb (h.pending hv)
    noOffer := h.offer_none hi }

section
variable {s : State} (h : s.Latched)
include h

/-- Answering a latched command leads to the invariant. -/
theorem State.Latched.respond_inv (st : Status) (inr : Bool) (idx : Nat) (data : Byte) :
    (s.respond st inr idx data).Inv :=
  have core : (s.respond st inr idx data).CoreInv := { h.toCoreInv with }
  core.inv_of_answered h.idle h.busy rfl (rspWord_framed _ _ _ _) h.noOffer

/-- The clear of a latched command leaves the written bytes canonical. -/
theorem State.Latched.clearFb_latched : s.clearFb.Latched :=
  { h with fbCanonical := Memory.wf_fill _ _ }

/-- A write of a mapped byte by a latched command leaves the written bytes canonical. -/
theorem State.Latched.writeFb_latched {i : Nat} (hi : i < s.cfg.bufLen) (v : Byte) : (s.writeFb i v).Latched :=
  { h with fbCanonical := Memory.wf_write v hi h.fbCanonical }

/-- In a latched command no transfer is in progress. -/
theorem State.Latched.ctrl_ne_updating : s.ctrl ≠ .updating := fun hc => by
  have hT := h.updating.mp hc
  simp [h.idle, SeqPhase.inTransfer] at hT

/-- A latched INIT begins its sequence. -/
theorem State.Latched.startInit_inSequence (hcmd : decodeWord s.cmd = .ok .init) : s.startInit.InSequence where
  legal := h.legal
  fbCanonical := h.fbCanonical
  cursor := by
    obtain ⟨-, hplace⟩ := (cursorInRange_iff s).mp h.cursor
    exact (cursorInRange_iff _).mpr ⟨Nat.zero_lt_succ 22, hplace⟩
  updating := by simp [h.ctrl_ne_updating, SeqPhase.inTransfer]
  txFramed := h.txFramed
  rspLogFramed := h.rspLogFramed
  notIdle := by simp
  busy := h.busy
  noResponse := h.noResponse
  command := .inl hcmd

/-- A latched UPDATE begins its transfer. -/
theorem State.Latched.startTransfer_inSequence (hcmd : decodeWord s.cmd = .ok .update) : s.startTransfer.InSequence where
  legal := h.legal
  fbCanonical := h.fbCanonical
  cursor := by
    obtain ⟨hk, -, hpage⟩ := (cursorInRange_iff s).mp h.cursor
    exact (cursorInRange_iff _).mpr ⟨hk, Nat.zero_lt_succ 5, hpage⟩
  updating := by simp [SeqPhase.inTransfer]
  txFramed := h.txFramed
  rspLogFramed := h.rspLogFramed
  notIdle := by simp
  busy := h.busy
  noResponse := h.noResponse
  command := .inr ⟨hcmd, rfl⟩

/-- Running a latched command leads to the invariant. -/
theorem State.Latched.exec_inv {i : Instr} {t : State} (hcmd : decodeWord s.cmd = .ok i) (he : exec i s = .next t) :
    t.Inv := by
  obtain ⟨hl, ⟨st, inr, idx, data, rfl⟩ | ⟨rfl, rfl⟩ | ⟨x, y, c, rfl, hr, rfl⟩ | ⟨rfl, rfl⟩ | ⟨rfl, -, rfl⟩⟩ := exec_cases he
  · -- a response
    exact h.respond_inv _ _ _ _
  · -- CLEAR
    exact h.clearFb_latched.respond_inv _ _ _ _
  · -- SET_PIXEL in range
    exact (h.writeFb_latched (pixelIdx_lt hl hr) _).respond_inv _ _ _ _
  · -- INIT
    exact (h.startInit_inSequence hcmd).runSequence_inv
  · -- UPDATE
    exact (h.startTransfer_inSequence hcmd).runSequence_inv

end

/-- Running a latched word, a command's or an illegal one, leads to the invariant. -/
theorem State.Latched.runWord_inv {s t : State} (h : s.Latched) (hw : runWord s.cmd s = .next t) : t.Inv := by
  rcases runWord_next hw with ⟨i, hi, he⟩ | ⟨-, rfl⟩
  · exact h.exec_inv hi he
  · exact h.respond_inv _ _ _ _

/-! ### The step -/

/-- Every move of the block keeps the invariant. -/
theorem State.Inv.blockMove_inv {s t : State} (h : s.Inv) (hm : blockMove s = .next t) : t.Inv := by
  rcases blockMove_cases hm with ⟨-, rfl⟩ | ⟨-, -, hv, -, rfl⟩ | ⟨-, -, -, -, rfl⟩ | ⟨-, hb, hv, -, rfl⟩ |
    ⟨-, -, -, rfl⟩ | ⟨-, hb, w, rest, -, hw⟩
  · -- reset
    exact h.core.takeReset_inv
  · -- the response is delivered
    exact h.deliver_inv hv
  · -- the response is held
    exact h
  · -- the sequence is resumed
    exact (h.inSequence hb hv).runSequence_inv
  · -- nothing to accept
    exact h
  · -- a word is accepted
    exact (h.latch_latched hb w rest).runWord_inv hw

/-- Settles O50: the outside's event and then the block's move each keep the invariant. -/
theorem everyStepKeepsTheInvariant : Obligations.EveryStepKeepsTheInvariant := by
  unfold Obligations.EveryStepKeepsTheInvariant
  intro s t h hstep
  exact h.takeEvent_inv.blockMove_inv (step_next hstep).2

end Sys2Proof.Machine
end

section
/-! What a command leaves alone, and the step at the ports: accepting a word, holding and delivering a response, reset
(spec/10_state.md R20, R25, R30-R33). -/

namespace Sys2Proof.Machine

open Sys2Proof

/-! ### What a command leaves alone -/

/-- What every command leaves alone from `s` to `t`: parameters, BUSY, latch, the response history, the reset draws and
every input but the room of the sink; TXLOG keeps what it holds (R20, R25, R32). -/
structure CommandFrame (s t : State) : Prop where
  cfg : t.cfg = s.cfg
  busy : t.busy = s.busy
  cmd : t.cmd = s.cmd
  rspLog : t.rspLog = s.rspLog
  resets : t.resets = s.resets
  ports : t.ports = { s.ports with txRoom := t.ports.txRoom }
  txLog : s.txLog <+: t.txLog

/-- Responding, and writing the framebuffer before it, is within the frame. -/
theorem respond_frame {s u : State} (h : u = { s with fb := u.fb }) (st : Status) (inr : Bool) (idx : Nat) (data : Byte) :
    CommandFrame s (u.respond st inr idx data) := by
  rw [h]
  exact ⟨rfl, rfl, rfl, rfl, rfl, rfl, List.prefix_rfl⟩

/-- Running a sequence from a place in range is within the frame. -/
theorem runSequence_commandFrame {s : State} (hl : s.cfg.legal = true) (hc : s.placeInRange) :
    CommandFrame s s.runSequence := by
  obtain ⟨hcfg, hresets, hbusy, hcmd, hrspLog, hports, htxLog⟩ := runSequence_frame hl hc
  exact ⟨hcfg, hbusy, hcmd, hrspLog, hresets, hports, htxLog⟩

/-- Coming to another place of the sequence changes nothing of the frame. -/
theorem CommandFrame.of_goTo {s t : State} {c : CtrlState} {q : Seq} (h : CommandFrame (s.goTo c q) t) :
    CommandFrame s t := { h with }

/-- Every command is within the frame. -/
theorem exec_frame {i : Instr} {s t : State} (h : exec i s = .next t) : CommandFrame s t := by
  obtain ⟨hl, ⟨st, inr, idx, data, rfl⟩ | ⟨-, rfl⟩ | ⟨x, y, c, -, -, rfl⟩ | ⟨-, rfl⟩ | ⟨-, -, rfl⟩⟩ := exec_cases h
  · -- a response
    exact respond_frame rfl _ _ _ _
  · -- CLEAR
    exact respond_frame rfl _ _ _ _
  · -- SET_PIXEL in range
    exact respond_frame rfl _ _ _ _
  · -- INIT
    exact (runSequence_commandFrame (s := s.startInit) hl (placeInRange_startInit s)).of_goTo
  · -- UPDATE
    exact (runSequence_commandFrame (s := s.startTransfer) hl (placeInRange_startTransfer s)).of_goTo

/-- Settles O46: the fields of the frame. -/
theorem commandsLeaveTheRestAlone : Obligations.CommandsLeaveTheRestAlone := by
  unfold Obligations.CommandsLeaveTheRestAlone
  intro i s t h
  have hf := exec_frame h
  exact ⟨hf.cfg, hf.busy, hf.cmd, hf.rspLog, hf.resets, hf.ports, hf.txLog⟩

/-- Running a latched word, a command's or an illegal one, is within the frame. -/
theorem runWord_frame {w : CommandWord} {s t : State} (h : runWord w s = .next t) : CommandFrame s t := by
  rcases runWord_next h with ⟨i, -, he⟩ | ⟨-, rfl⟩
  · exact exec_frame he
  · exact respond_frame rfl _ _ _ _

/-- Every move of a legal block keeps what both histories hold, and the parameters. -/
theorem blockMove_histories {s t : State} (hl : s.cfg.legal = true) (h : blockMove s = .next t) :
    s.txLog <+: t.txLog ∧ s.rspLog <+: t.rspLog ∧ t.cfg = s.cfg := by
  rcases blockMove_cases h with ⟨-, rfl⟩ | ⟨-, -, -, -, rfl⟩ | ⟨-, -, -, -, rfl⟩ | ⟨-, -, -, hc, rfl⟩ | ⟨-, -, -, rfl⟩ |
    ⟨-, -, w, rest, -, hw⟩
  · -- reset
    exact ⟨List.prefix_rfl, List.prefix_rfl, rfl⟩
  · -- the response is delivered
    exact ⟨List.prefix_rfl, List.prefix_append _ _, rfl⟩
  · -- the response is held
    exact ⟨List.prefix_rfl, List.prefix_rfl, rfl⟩
  · -- the sequence is resumed
    have hf := runSequence_commandFrame hl (placeInRange_of_cursor hc)
    exact ⟨hf.txLog, hf.rspLog ▸ List.prefix_rfl, hf.cfg⟩
  · -- nothing to accept
    exact ⟨List.prefix_rfl, List.prefix_rfl, rfl⟩
  · -- a word is accepted
    have hf := runWord_frame hw
    exact ⟨hf.txLog, hf.rspLog ▸ List.prefix_rfl, hf.cfg⟩

/-- Settles O48: an event of the outside touches no history, and a move keeps both. -/
theorem historiesOnlyGrow : Obligations.HistoriesOnlyGrow := by
  unfold Obligations.HistoriesOnlyGrow
  intro s t h
  obtain ⟨hl, hm⟩ := step_next h
  simpa using blockMove_histories (s := s.takeEvent) (by simpa using hl) hm

/-- A busy legal block that is not in reset delivers its response, or holds it, or resumes its sequence; it leaves the latch
and the command port alone, and records a response only where it becomes free. -/
theorem blockMove_busy {s t : State} (hl : s.cfg.legal = true) (hb : s.busy = true) (hrst : s.ports.rst = false)
    (h : blockMove s = .next t) :
    t.cmd = s.cmd ∧ t.ports.cmdIn = s.ports.cmdIn ∧ (t.busy = true → t.rspLog = s.rspLog) := by
  rcases blockMove_cases h with ⟨hr, -⟩ | ⟨-, -, -, -, rfl⟩ | ⟨-, -, -, -, rfl⟩ | ⟨-, -, -, hc, rfl⟩ | ⟨-, hfree, -⟩ |
    ⟨-, hfree, -⟩
  · -- reset
    simp [hrst] at hr
  · -- the response is delivered
    exact ⟨rfl, rfl, fun hbusy => by simp at hbusy⟩
  · -- the response is held
    exact ⟨rfl, rfl, fun _ => rfl⟩
  · -- the sequence is resumed
    have hf := runSequence_commandFrame hl (placeInRange_of_cursor hc)
    exact ⟨hf.cmd, by rw [hf.ports], fun _ => hf.rspLog⟩
  · -- nothing to accept
    simp [hb] at hfree
  · -- a word is accepted
    simp [hb] at hfree

/-- Settles O13: the event changes no field but the inputs, and a busy block's move accepts no word. -/
theorem busyBlockAcceptsNoCommand : Obligations.BusyBlockAcceptsNoCommand := by
  unfold Obligations.BusyBlockAcceptsNoCommand
  intro s t hb hrst h
  obtain ⟨hl, hm⟩ := step_next h
  simpa using blockMove_busy (s := s.takeEvent) (by simpa using hl) (by simpa using hb) hrst hm

/-! ### SET_PIXEL and the pixels -/

@[simp] theorem State.pixel_respond (s : State) (st : Status) (inr : Bool) (idx : Nat) (data : Byte) (x y : Nat) :
    (s.respond st inr idx data).pixel x y = s.pixel x y := rfl

/-- The bit of a pixel's byte that its mask selects takes the colour class (R92). -/
theorem pixel_writeFb_setBit_same (s : State) (x y : Nat) (old : Byte) (on : Bool) :
    (s.writeFb (pixelIdx s.cfg x y) (setBit old (pixelMask y) on)).pixel x y = on := by
  have hbit := setBit_getLsbD old y (y % 8) on (Nat.mod_lt _ (by decide))
  simpa [State.pixel] using hbit

/-- Two in-range pixels of one byte and one bit are the same pixel (R81 law 3). -/
theorem pixel_place_inj {c : Config} {x y x' y' : Nat} (hx : x < c.width) (hx' : x' < c.width)
    (hidx : pixelIdx c x' y' = pixelIdx c x y) (hbit : y' % 8 = y % 8) : (x', y') = (x, y) := by
  obtain ⟨hcol, hpage⟩ := column_page_inj hx' hx hidx
  rw [hcol, show y' = y by omega]

/-- Writing a pixel's bit keeps every other in-range pixel: one of the same byte has another bit (R22, R92). -/
theorem pixel_writeFb_setBit_other (s : State) {x y x' y' : Nat} (on : Bool) (hx : x < s.cfg.width)
    (hx' : x' < s.cfg.width) (hne : (x', y') ≠ (x, y)) :
    (s.writeFb (pixelIdx s.cfg x y) (setBit (s.fbByte (pixelIdx s.cfg x y)) (pixelMask y) on)).pixel x' y' =
      s.pixel x' y' := by
  simp only [State.pixel, State.writeFb_cfg]
  by_cases hidx : pixelIdx s.cfg x' y' = pixelIdx s.cfg x y
  · have hbit : y' % 8 ≠ y % 8 := fun hbit => hne (pixel_place_inj hx hx' hidx hbit)
    rw [hidx, State.fbByte_writeFb_same, setBit_getLsbD _ _ _ _ (Nat.mod_lt _ (by decide)), if_neg hbit]
  · rw [State.fbByte_writeFb_other _ _ hidx]

/-- Settles O25: the written byte holds the pixel's new bit and every other bit of the old byte. -/
theorem setPixelKeepsEveryOtherPixel : Obligations.SetPixelKeepsEveryOtherPixel := by
  unfold Obligations.SetPixelKeepsEveryOtherPixel
  intro s x y c hl hx hy
  refine ⟨_, exec_setPixel_inRange hl c ((inRange_iff s.cfg x y).mpr ⟨hx, hy⟩), ?same, fun x' y' hx' _ hne => ?other⟩
  case same =>
    rw [State.pixel_respond, pixel_writeFb_setBit_same, colourOn]
  case other =>
    rw [State.pixel_respond, pixel_writeFb_setBit_other s _ hx hx' hne]

/-! ### The move of the block at its ports, a case each -/

/-- A free block accepts the first word on its command port and runs it (R30). -/
theorem blockMove_accepts {s : State} {w : CommandWord} {rest : List CommandWord} (hrst : s.ports.rst = false)
    (hb : s.busy = false) (hq : s.ports.cmdIn = w :: rest) : blockMove s = runWord w (s.latch w rest) := by
  simp [blockMove, hrst, hb, hq]

/-- A pending response is delivered to a ready host (R31). -/
theorem blockMove_delivers {s : State} (hrst : s.ports.rst = false) (hb : s.busy = true) (hv : s.rspValid = true)
    (hr : s.ports.rspReady = true) : blockMove s = .next s.deliver := by
  simp [blockMove, hrst, hb, hv, hr]

/-- A pending response is held while the host is not ready (R31). -/
theorem blockMove_holds {s : State} (hrst : s.ports.rst = false) (hb : s.busy = true) (hv : s.rspValid = true)
    (hr : s.ports.rspReady = false) : blockMove s = .next s := by
  simp [blockMove, hrst, hb, hv, hr]

/-- While `rst` is asserted the step of a legal block takes reset (R180). -/
theorem step_takesReset {s : State} (hl : s.cfg.legal = true) (hrst : s.takeEvent.ports.rst = true) :
    step s = .next s.takeEvent.takeReset := by
  simp [step_legal hl, blockMove, hrst]

/-- Settles O8: the accepted word is latched and the command it decodes to is run. -/
theorem stepRunsTheDecodedCommand : Obligations.StepRunsTheDecodedCommand := by
  unfold Obligations.StepRunsTheDecodedCommand
  intro s w rest i hl hb hrst hq hi
  calc step s = blockMove s.takeEvent := step_legal hl
    _ = runWord w (s.takeEvent.latch w rest) := blockMove_accepts hrst (by simpa using hb) hq
    _ = exec i (s.takeEvent.latch w rest) := runWord_ok hi

/-- The pause in front of the script is the event of a presented block's step: the script after it is the old one. -/
theorem takeEvent_present (s : State) (w : CommandWord) :
    (s.present w).takeEvent =
      { s with busy := false, rspValid := false, ports := { s.ports with rst := false, cmdIn := w :: s.ports.cmdIn } } :=
  rfl

/-- Settles O9: the block that presents the word meets what a step that runs it asks for. -/
theorem placedWordIsRunByTheNextStep : Obligations.PlacedWordIsRunByTheNextStep := by
  unfold Obligations.PlacedWordIsRunByTheNextStep
  intro s w i hl hi
  have hword : s.withFetchWord 48 w.toNat = s.present w := by
    rw [State.withFetchWord, Nat.mod_eq_of_lt w.isLt, BitVec.ofNat_toNat, BitVec.setWidth_eq]
  rw [hword, stepRunsTheDecodedCommand (s.present w) w s.ports.cmdIn i hl rfl rfl rfl hi, takeEvent_present]

/-- Settles O12: the block's two moves with a response pending. -/
theorem responseIsHeldUntilTheHostAcceptsIt : Obligations.ResponseIsHeldUntilTheHostAcceptsIt := by
  unfold Obligations.ResponseIsHeldUntilTheHostAcceptsIt
  intro s hl hb hv hrst
  have hb' : s.takeEvent.busy = true := by simpa using hb
  have hv' : s.takeEvent.rspValid = true := by simpa using hv
  rw [step_legal hl]
  refine ⟨fun hready => ?_, fun hready => blockMove_holds hrst hb' hv' hready⟩
  rw [blockMove_delivers hrst hb' hv' hready]
  simp [State.deliver]

/-- Settles O16: the state the step ends in is that of `State.takeReset`, whose cursor is drawn within its ranges. -/
theorem resetTakesTheResetValues : Obligations.ResetTakesTheResetValues := by
  unfold Obligations.ResetTakesTheResetValues
  intro s hl hrst
  exact ⟨s.takeEvent.takeReset, step_takesReset hl hrst, rfl, rfl, rfl, rfl, rfl, by simp, by simp, by simp, rfl,
    cursorInRange_takeReset (by simpa using hl)⟩

/-- Settles O17: a reset empties the list of written bytes, so every byte reads as its draw. -/
theorem resetRedrawsTheFramebuffer : Obligations.ResetRedrawsTheFramebuffer := by
  unfold Obligations.ResetRedrawsTheFramebuffer
  intro s hl hrst
  exact ⟨s.takeEvent.takeReset, step_takesReset hl hrst, by simp, fun i => by simp⟩

end Sys2Proof.Machine
end

section
/-! The framebuffer under the other commands, and a sequence that is resumed (spec/20_memory.md R41, R51, R52;
spec/42_page_sequencer.md R117, R118). Both rest on the two ends a run of a sequence can have: `seqFinish` and
`SeqStalled`. -/

namespace Sys2Proof.Machine

open Sys2Proof

/-! ### The two ends of a run, told apart by the place it ends at -/

section
variable {s : State} (hl : s.cfg.legal = true) (hc : s.placeInRange) (hi : s.seq.phase ≠ .idle)
include hl hc hi

/-- A run that comes to IDLE has finished its sequence. -/
theorem runSequence_eq_seqFinish (hend : s.runSequence.seq.phase = .idle) : s.runSequence = seqFinish s := by
  rcases runSequence_cases hl hc hi with ⟨-, hfin⟩ | ⟨n, -, -, hs⟩
  · exact hfin
  · exact absurd hend hs.notIdle

/-- A run that does not come to IDLE waits for the sink. -/
theorem runSequence_seqStalled (hwait : s.runSequence.seq.phase ≠ .idle) : ∃ n, SeqStalled s n s.runSequence := by
  rcases runSequence_cases hl hc hi with ⟨-, hfin⟩ | ⟨n, -, -, hs⟩
  · exact absurd (by rw [hfin]; rfl) hwait
  · exact ⟨n, hs⟩

end

/-! ### What is emitted and what is still to come -/

/-- After the end of a sequence nothing is to come. -/
@[simp] theorem seqRest_seqFinish (s : State) : seqRest (seqFinish s) = [] := rfl

/-- What is still to come does not depend on the input ports. -/
@[simp] theorem seqRest_takeEvent (s : State) : seqRest s.takeEvent = seqRest s := by
  rw [takeEvent_eq]
  rfl

/-- A run moves transactions from what is to come into TXLOG, in order: none is lost, merged or sent twice (R52, R118). -/
theorem runSequence_txLog_append_seqRest {s : State} (hl : s.cfg.legal = true) (hc : s.placeInRange)
    (hi : s.seq.phase ≠ .idle) : s.runSequence.txLog ++ seqRest s.runSequence = s.txLog ++ seqRest s := by
  rcases runSequence_cases hl hc hi with ⟨-, hfin⟩ | ⟨n, -, -, hs⟩
  · rw [hfin, seqRest_seqFinish, List.append_nil, seqFinish]
  · rw [hs.txLog, hs.rest, List.append_assoc, List.take_append_drop]

/-- The transaction offered while a sequence waits is the first still to come (R117). -/
theorem SeqStalled.txOffer_eq_head {s t : State} {n : Nat} (h : SeqStalled s n t) : t.txOffer = (seqRest t).head? := by
  rw [h.txOffer, h.rest, List.head?_drop]

/-- The step of a block whose sequence waits, without a reset, resumes the sequence. -/
theorem State.Inv.step_resumes {s t : State} (h : s.Inv) (hi : s.seq.phase ≠ .idle)
    (hrst : s.takeEvent.ports.rst = false) (hstep : step s = .next t) : t = s.takeEvent.runSequence := by
  obtain ⟨hb, hv⟩ := h.progress.mp hi
  have hmove : blockMove s.takeEvent = .next s.takeEvent.runSequence := by
    simp [blockMove, resume, hrst, hb, hv, h.takeEvent_inv.cursor]
  simpa [hmove] using (step_next hstep).2.symm

/-- Settles O40: the step runs the sequence on, which finishes it or stops it at its next transaction. -/
theorem resumedSequenceGoesOnWhereItStopped : Obligations.ResumedSequenceGoesOnWhereItStopped := by
  unfold Obligations.ResumedSequenceGoesOnWhereItStopped
  intro s t h hne hrst hstep
  obtain ⟨hprefix, -, -⟩ := historiesOnlyGrow s t hstep
  obtain rfl := h.step_resumes hne hrst hstep
  have hl := h.takeEvent_inv.legal
  have hc := placeInRange_of_cursor h.takeEvent_inv.cursor
  have hi : s.takeEvent.seq.phase ≠ .idle := by simpa using hne
  obtain ⟨-, hv⟩ := h.progress.mp hne
  refine ⟨?conserved, hprefix, fun hend => ?finished, fun hwait => ?waits⟩
  case conserved =>
    simpa using runSequence_txLog_append_seqRest hl hc hi
  case finished =>
    rw [runSequence_eq_seqFinish hl hc hi hend]
    exact ⟨rfl, (by decide : rspWord .ok false 0 0x00#8 = 0x00000000#32), rfl⟩
  case waits =>
    obtain ⟨n, hs⟩ := runSequence_seqStalled hl hc hi hwait
    exact ⟨by simp [hs.rspValid, hv], hs.txOffer_eq_head⟩

/-! ### The framebuffer -/

/-- A run whose sequence has no clear to come leaves every byte of `FB` alone, also when it waits (R51). -/
theorem fbByte_runSequence {s : State} (hl : s.cfg.legal = true) (hc : s.placeInRange) (hi : s.seq.phase ≠ .idle)
    (hclear : beforeClear s = false) (j : Nat) : s.runSequence.fbByte j = s.fbByte j := by
  rcases runSequence_cases hl hc hi with ⟨-, hfin⟩ | ⟨n, -, -, hs⟩
  · rw [hfin]
    exact State.fbByte_congr (seqFinish s) s (by simp [seqFinish, hclear]) rfl j
  · exact State.fbByte_congr s.runSequence s (by simp [hs.fb, hclear]) hs.resets j

/-- Settles O45: what is left of the cases of a command is a response, and UPDATE's transfer, which has no clear. -/
theorem onlyClearSetPixelAndInitWriteTheFramebuffer : Obligations.OnlyClearSetPixelAndInitWriteTheFramebuffer := by
  unfold Obligations.OnlyClearSetPixelAndInitWriteTheFramebuffer
  intro i s t hclear hset hinit h j
  obtain ⟨hl, ⟨st, inr, idx, data, rfl⟩ | ⟨hi, -⟩ | ⟨x, y, c, hi, -⟩ | ⟨hi, -⟩ | ⟨-, -, rfl⟩⟩ := exec_cases h
  · -- a response
    exact State.fbByte_respond s st inr idx data j
  · -- CLEAR
    exact absurd hi hclear
  · -- SET_PIXEL in range
    exact absurd hi (hset x y c)
  · -- INIT
    exact absurd hi hinit
  · -- UPDATE
    exact fbByte_runSequence (s := s.startTransfer) hl (placeInRange_startTransfer s) (by simp) rfl j

end Sys2Proof.Machine
end

section
/-! Decoding and encoding (spec/30_encoding.md R60-R66, R73, R74). Every well-formed command is encoded as `enc` of its
opcode and its operands, and every word with RSV 0 is `enc` of its own fields, so both directions are facts about `enc` and
`assignOpcode`. -/

namespace Sys2Proof

/-! ### Well-formed commands and their encoding -/

@[simp] theorem setPixel_wf_iff {x y c : Nat} : (Instr.setPixel x y c).wf = true ↔ x < 65536 ∧ y < 65536 ∧ c < 256 := by
  simp [Instr.wf, fitsCoord, fitsColour, and_assoc]

@[simp] theorem getPixel_wf_iff {x y : Nat} : (Instr.getPixel x y).wf = true ↔ x < 65536 ∧ y < 65536 := by
  simp [Instr.wf, fitsCoord]

@[simp] theorem decode_wf_iff {x y : Nat} : (Instr.decode x y).wf = true ↔ x < 65536 ∧ y < 65536 := by
  simp [Instr.wf, fitsCoord]

@[simp] theorem readByte_wf_iff {index : Nat} : (Instr.readByte index).wf = true ↔ index < 65536 := by
  simp [Instr.wf, fitsCoord]

/-- The fields of a well-formed command's word, an unread one 0, are within their widths, and the opcode map assigns the
command to its opcode and these fields (R63, R64, R73). -/
theorem exists_enc_of_wf {i : Instr} (h : i.wf = true) :
    ∃ x y c, (x < 65536 ∧ y < 65536 ∧ c < 256) ∧ encode i = enc i.opcode x y c ∧ assignOpcode i.opcode x y c = .ok i := by
  cases i with
  | nop => exact ⟨0, 0, 0, by decide, rfl, rfl⟩
  | clear => exact ⟨0, 0, 0, by decide, rfl, rfl⟩
  | setPixel x y c => exact ⟨x, y, c, setPixel_wf_iff.mp h, rfl, rfl⟩
  | getPixel x y => exact ⟨x, y, 0, by simpa using h, rfl, rfl⟩
  | decode x y => exact ⟨x, y, 0, by simpa using h, rfl, rfl⟩
  | readByte index => exact ⟨index, 0, 0, by simpa using h, rfl, rfl⟩
  | init => exact ⟨0, 0, 0, by decide, rfl, rfl⟩
  | update => exact ⟨0, 0, 0, by decide, rfl, rfl⟩

theorem Instr.opcode_lt (i : Instr) : i.opcode < 8 := by
  cases i <;> simp [opcode]

/-- Settles O3: the word is `enc` of the command's opcode and fields, which decodes as the opcode map says. -/
theorem decodeOfEncodeIsTheCommand : Obligations.DecodeOfEncodeIsTheCommand := by
  unfold Obligations.DecodeOfEncodeIsTheCommand
  intro i hwf
  obtain ⟨x, y, c, ⟨hx, hy, hc⟩, henc, hassign⟩ := exists_enc_of_wf hwf
  have hop : i.opcode < 16 := i.opcode_lt.trans (by decide)
  rw [henc, decodeWord_enc hop hx hy hc, hassign]

/-! ### The layout of a word -/

/-- A word is its five fields in the order of R60. -/
theorem word_eq_append_fields (w : CommandWord) :
    w = BitVec.ofNat 4 (opField w) ++ BitVec.ofNat 4 (rsvField w) ++ BitVec.ofNat 16 (xField w) ++
      BitVec.ofNat 16 (yField w) ++ BitVec.ofNat 8 (cField w) := by
  simp only [opField, rsvField, xField, yField, cField, BitVec.ofNat_toNat, BitVec.setWidth_eq]
  rw [BitVec.extractLsb'_append_extractLsb'_eq_extractLsb' (by rfl),
    BitVec.extractLsb'_append_extractLsb'_eq_extractLsb' (by rfl),
    BitVec.extractLsb'_append_extractLsb'_eq_extractLsb' (by rfl),
    BitVec.extractLsb'_append_extractLsb'_eq_extractLsb' (by rfl), BitVec.extractLsb'_eq_self]

/-- `enc` in the layout of R60, RSV 0. -/
theorem enc_eq_append {op x y c : Nat} (ho : op < 16) (hx : x < 65536) (hy : y < 65536) (hc : c < 256) :
    enc op x y c = BitVec.ofNat 4 op ++ 0#4 ++ BitVec.ofNat 16 x ++ BitVec.ofNat 16 y ++ BitVec.ofNat 8 c := by
  have hw := word_eq_append_fields (enc op x y c)
  obtain ⟨h1, h2, h3, h4, h5⟩ := enc_fields ho hx hy hc
  rwa [h1, h2, h3, h4, h5] at hw

/-- Settles O2: each word is `enc` of the command's opcode and fields, 0 for an unread one. -/
theorem encodeFollowsTheWordLayout : Obligations.EncodeFollowsTheWordLayout := by
  unfold Obligations.EncodeFollowsTheWordLayout
  intro x y c hx hy hc
  have h0 : 0 < 65536 := by decide
  have h0c : 0 < 256 := by decide
  exact ⟨enc_eq_append (by decide) h0 h0 h0c, enc_eq_append (by decide) h0 h0 h0c, enc_eq_append (by decide) hx hy hc,
    enc_eq_append (by decide) hx hy h0c, enc_eq_append (by decide) hx hy h0c, enc_eq_append (by decide) hx h0 h0c,
    enc_eq_append (by decide) h0 h0 h0c, enc_eq_append (by decide) h0 h0 h0c⟩

/-! ### What a word decodes to -/

/-- A word whose reserved bits are not 0 is refused for them, whatever its opcode (R62). -/
theorem decodeWord_of_rsv_ne {w : CommandWord} (h : rsvField w ≠ 0) : decodeWord w = .error .reservedBits := by
  simp [decodeWord, h]

/-- A word decodes to a command exactly when RSV is 0 and the opcode map assigns the command. -/
theorem decodeWord_eq_ok_iff {w : CommandWord} {i : Instr} :
    decodeWord w = .ok i ↔ rsvField w = 0 ∧ assignOpcode (opField w) (xField w) (yField w) (cField w) = .ok i := by
  by_cases h : rsvField w = 0
  · simp [decodeWord_of_rsv h, h]
  · simp [decodeWord_of_rsv_ne h, h]

/-- The opcodes 8 and above are reserved (R66). -/
theorem assignOpcode_reserved {op : Nat} (h : 8 ≤ op) (x y c : Nat) : assignOpcode op x y c = .error .reservedOpcode := by
  obtain ⟨k, rfl⟩ := Nat.exists_eq_add_of_le' h
  rfl

/-- The opcodes 0 to 7 are assigned (R63). -/
theorem assignOpcode_assigned {op : Nat} (h : op < 8) (x y c : Nat) : ∃ i, assignOpcode op x y c = .ok i := by
  interval_cases op <;> exact ⟨_, rfl⟩

/-- The command that the opcode map assigns, opcode by opcode (R63, R64). -/
theorem assignOpcode_cases {op x y c : Nat} {i : Instr} (h : assignOpcode op x y c = .ok i) :
    (op = 0 ∧ i = .nop) ∨ (op = 1 ∧ i = .clear) ∨ (op = 2 ∧ i = .setPixel x y c) ∨ (op = 3 ∧ i = .getPixel x y) ∨
      (op = 4 ∧ i = .decode x y) ∨ (op = 5 ∧ i = .readByte x) ∨ (op = 6 ∧ i = .init) ∨ (op = 7 ∧ i = .update) := by
  obtain ⟨hop, -⟩ := assignOpcode_ok h
  interval_cases op <;> cases h <;> simp

/-- Settles O5: RSV 0 leaves the answer to the opcode map. -/
theorem decodingChecksRsvThenOpcode : Obligations.DecodingChecksRsvThenOpcode := by
  unfold Obligations.DecodingChecksRsvThenOpcode
  refine fun w => ⟨decodeWord_of_rsv_ne, fun hr hop => ?reserved, fun hr hop => ?assigned⟩
  case reserved => rw [decodeWord_of_rsv hr, assignOpcode_reserved hop]
  case assigned =>
    obtain ⟨i, hi⟩ := assignOpcode_assigned hop (xField w) (yField w) (cField w)
    exact ⟨i, decodeWord_eq_ok_iff.mpr ⟨hr, hi⟩, (assignOpcode_ok hi).2⟩

/-- Settles O1: ten closed words, which the decoder evaluates. -/
theorem specWordsDecode : Obligations.SpecWordsDecode := by
  unfold Obligations.SpecWordsDecode
  decide

/-! ### A word without the fields a command does not read -/

/-- Masking off the `k` low bits of a word rounds its number down to a multiple of `2 ^ k`. -/
theorem and_highMask_toNat (w : CommandWord) (k : Nat) :
    (w &&& BitVec.allOnes 48 <<< k).toNat = w.toNat / 2 ^ k * 2 ^ k := by
  rw [← BitVec.shiftLeft_ushiftRight, BitVec.toNat_shiftLeft, BitVec.toNat_ushiftRight, Nat.shiftRight_eq_div_pow,
    Nat.shiftLeft_eq]
  exact Nat.mod_eq_of_lt ((Nat.div_mul_le_self _ _).trans_lt w.isLt)

/-- The mask of the opcode table is all bits but the 40 low ones, so it keeps OP and RSV (R63). -/
theorem opRsvMask_eq : 0xFF0000000000#48 = BitVec.allOnes 48 <<< 40 := by decide

/-- What the four field masks leave of a word with RSV 0: OP alone, then with X, with X and Y, and with X, Y and C. -/
theorem and_mask_eq_enc {w : CommandWord} (hr : rsvField w = 0) :
    w &&& 0xFF0000000000#48 = enc (opField w) 0 0 0 ∧ w &&& 0xFFFFFF000000#48 = enc (opField w) (xField w) 0 0 ∧
      w &&& 0xFFFFFFFFFF00#48 = enc (opField w) (xField w) (yField w) 0 ∧
      w &&& 0xFFFFFFFFFFFF#48 = enc (opField w) (xField w) (yField w) (cField w) := by
  have hw := w.isLt
  obtain ⟨hop, -, hx, hy, hc⟩ := fields_lt w
  obtain ⟨eop, ersv, ex, ey, ec⟩ := fields_toNat w
  have m24 : 0xFFFFFF000000#48 = BitVec.allOnes 48 <<< 24 := by decide
  have m8 : 0xFFFFFFFFFF00#48 = BitVec.allOnes 48 <<< 8 := by decide
  have m0 : 0xFFFFFFFFFFFF#48 = BitVec.allOnes 48 <<< 0 := by decide
  refine ⟨BitVec.eq_of_toNat_eq ?_, BitVec.eq_of_toNat_eq ?_, BitVec.eq_of_toNat_eq ?_, BitVec.eq_of_toNat_eq ?_⟩
  · rw [opRsvMask_eq, and_highMask_toNat, enc_toNat hop (by decide) (by decide) (by decide)]; omega
  · rw [m24, and_highMask_toNat, enc_toNat hop hx (by decide) (by decide)]; omega
  · rw [m8, and_highMask_toNat, enc_toNat hop hx hy (by decide)]; omega
  · rw [m0, and_highMask_toNat, enc_toNat hop hx hy hc]; omega

/-- Settles O4: the command is encoded of the fields of the word that it reads, and these are what its mask leaves. -/
theorem encodeOfDecodeKeepsTheReadFields : Obligations.EncodeOfDecodeKeepsTheReadFields := by
  unfold Obligations.EncodeOfDecodeKeepsTheReadFields
  intro w i hdec
  obtain ⟨hr, hassign⟩ := decodeWord_eq_ok_iff.mp hdec
  obtain ⟨-, -, hx, hy, hc⟩ := fields_lt w
  obtain ⟨mop, mx, my, mc⟩ := and_mask_eq_enc hr
  obtain ⟨hop, rfl⟩ | ⟨hop, rfl⟩ | ⟨hop, rfl⟩ | ⟨hop, rfl⟩ | ⟨hop, rfl⟩ | ⟨hop, rfl⟩ | ⟨hop, rfl⟩ | ⟨hop, rfl⟩ :=
    assignOpcode_cases hassign <;> rw [hop] at mop mx my mc
  · exact ⟨rfl, mop.symm⟩
  · exact ⟨rfl, mop.symm⟩
  · exact ⟨setPixel_wf_iff.mpr ⟨hx, hy, hc⟩, mc.symm⟩
  · exact ⟨getPixel_wf_iff.mpr ⟨hx, hy⟩, my.symm⟩
  · exact ⟨decode_wf_iff.mpr ⟨hx, hy⟩, my.symm⟩
  · exact ⟨readByte_wf_iff.mpr hx, mx.symm⟩
  · exact ⟨rfl, mop.symm⟩
  · exact ⟨rfl, mop.symm⟩

/-! ### The opcode table -/

/-- The row of R63 for a command: its mnemonic, `match = OP << 44` and the mask of OP and RSV. -/
def Instr.row (i : Instr) : OpcodeRow := ⟨i.mnemonic, BitVec.ofNat 48 (i.opcode <<< 44), 0xFF0000000000#48⟩

/-- The opcode table is the rows of the eight commands. -/
theorem opcodeTable_eq_map_row : opcodeTable =
    [.nop, .clear, .setPixel 0 0 0, .getPixel 0 0, .decode 0 0, .readByte 0, .init, .update].map Instr.row := by
  decide

/-- The row of a command stands in the table at its opcode. -/
theorem opcodeTable_getElem?_opcode (i : Instr) : opcodeTable[i.opcode]? = some i.row := by
  rw [opcodeTable_eq_map_row]
  cases i <;> rfl

/-- Every row of the table is a command's. -/
theorem exists_row_of_mem {r : OpcodeRow} (h : r ∈ opcodeTable) : ∃ i : Instr, i.row = r := by
  rw [opcodeTable_eq_map_row] at h
  obtain ⟨i, -, hi⟩ := List.mem_map.mp h
  exact ⟨i, hi⟩

/-- The first row with a command's mnemonic stands at its opcode. -/
theorem opcodeTable_findIdx_mnemonic (i : Instr) : opcodeTable.findIdx (·.mnemonic == i.mnemonic) = i.opcode := by
  cases i <;> rfl

/-- Two commands with one opcode have one row. -/
theorem row_eq_of_opcode_eq {i j : Instr} (h : i.opcode = j.opcode) : i.row = j.row := by
  have hi := opcodeTable_getElem?_opcode i
  rw [h, opcodeTable_getElem?_opcode j] at hi
  exact (Option.some.inj hi).symm

/-- The mnemonic of a command and its opcode say the same. -/
theorem mnemonic_eq_iff {i j : Instr} : i.mnemonic = j.mnemonic ↔ i.opcode = j.opcode := by
  refine ⟨fun h => ?_, fun h => congrArg OpcodeRow.mnemonic (row_eq_of_opcode_eq h)⟩
  rw [← opcodeTable_findIdx_mnemonic i, h, opcodeTable_findIdx_mnemonic j]

theorem row_pattern_toNat (i : Instr) : i.row.pattern.toNat = i.opcode <<< 44 := by
  have hi := i.opcode_lt
  rw [Instr.row, BitVec.toNat_ofNat, Nat.shiftLeft_eq]
  omega

/-- A word falls under a command's row exactly when its RSV is 0 and its OP is the command's opcode (R63). -/
theorem row_holds_iff {i : Instr} {w : CommandWord} : i.row.holds w = true ↔ rsvField w = 0 ∧ opField w = i.opcode := by
  have hi := i.opcode_lt
  have hw := w.isLt
  obtain ⟨eop, ersv, -⟩ := fields_toNat w
  have hmask : i.row.mask = BitVec.allOnes 48 <<< 40 := opRsvMask_eq
  rw [OpcodeRow.holds, beq_iff_eq, ← BitVec.toNat_inj, hmask, and_highMask_toNat, row_pattern_toNat, Nat.shiftLeft_eq]
  omega

/-- Settles O6: a row is a command's, which a word falls under by its RSV and OP alone; these decide the mnemonic too. -/
theorem opcodeTableRowsDecideTheCommand : Obligations.OpcodeTableRowsDecideTheCommand := by
  unfold Obligations.OpcodeTableRowsDecideTheCommand
  refine ⟨fun r hr => ?mask, fun i => ?pattern, fun w r hr => ?decides, fun w r q hr hq hholds hholds' => ?unique⟩
  case mask =>
    obtain ⟨i, rfl⟩ := exists_row_of_mem hr
    rfl
  case pattern =>
    exact ⟨i.row, List.mem_of_getElem? (opcodeTable_getElem?_opcode i), rfl, row_pattern_toNat i⟩
  case decides =>
    obtain ⟨j, rfl⟩ := exists_row_of_mem hr
    rw [row_holds_iff]
    constructor
    · rintro ⟨hrsv, hop⟩
      obtain ⟨i, hi⟩ := assignOpcode_assigned (hop ▸ j.opcode_lt) (xField w) (yField w) (cField w)
      exact ⟨i, decodeWord_eq_ok_iff.mpr ⟨hrsv, hi⟩, mnemonic_eq_iff.mpr ((assignOpcode_ok hi).2.trans hop)⟩
    · rintro ⟨i, hdec, hmnemonic⟩
      obtain ⟨hrsv, hi⟩ := decodeWord_eq_ok_iff.mp hdec
      exact ⟨hrsv, (assignOpcode_ok hi).2.symm.trans (mnemonic_eq_iff.mp hmnemonic)⟩
  case unique =>
    obtain ⟨i, rfl⟩ := exists_row_of_mem hr
    obtain ⟨j, rfl⟩ := exists_row_of_mem hq
    exact row_eq_of_opcode_eq ((row_holds_iff.mp hholds).2.symm.trans (row_holds_iff.mp hholds').2)

end Sys2Proof
end

section
/-! The response word (spec/30_encoding.md R67). -/

namespace Sys2Proof.Machine

open Sys2Proof

/-- Settles O7: a field is the part of the word's number that `rspWord_toNat` puts there. -/
theorem responseWordHasItsFields : Obligations.ResponseWordHasItsFields := by
  unfold Obligations.ResponseWordHasItsFields
  intro st inr idx data hidx
  have hst := (statusCode st).isLt
  have hinr := inr.toNat_lt
  have hdata := data.isLt
  obtain ⟨hstatus, hflag, hreserved, hindex, hbyte⟩ := rspFields_toNat (rspWord st inr idx data)
  rw [rspWord_toNat] at hstatus hflag hreserved hindex hbyte
  refine ⟨BitVec.eq_of_toNat_eq ?_, Bool.eq_iff_iff.mpr ?_, BitVec.eq_of_toNat_eq ?_, ?_, BitVec.eq_of_toNat_eq ?_⟩
  · rw [hstatus]; omega
  · rw [← Bool.toNat_eq_one, ← Bool.toNat_eq_one, hflag]; omega
  · rw [hreserved, BitVec.toNat_ofNat]; omega
  · rw [hindex]; omega
  · rw [hbyte]; omega

end Sys2Proof.Machine
end

section
/-! The address decoder (spec/40_address_decoder.md R80-R84). Every in-range pixel is bit `b` of column `x` of a page `p`, and
the decoder of `(x, 8p + b)` is `addrDecode_column`; the laws, the inverse and the largest index are read from it. -/

namespace Sys2Proof.Machine

open Sys2Proof

/-! ### The decoder -/

/-- The in-range flag is set exactly by the bounds (R81 law 2). -/
theorem addrDecode_inr_iff {c : Config} {x y : Nat} :
    (addrDecode c x y).inr = true ↔ x < c.width ∧ y < c.height := by
  rw [← inRange_iff]
  cases h : inRange c x y with
  | true => simp [addrDecode_inRange h]
  | false => simp [addrDecode_outOfRange h]

/-- The output whose flag is set is the formula of R80. -/
theorem addrDecode_of_inr {c : Config} {x y : Nat} (h : (addrDecode c x y).inr = true) :
    addrDecode c x y = ⟨true, pixelIdx c x y, pixelMask y⟩ :=
  addrDecode_inRange ((inRange_iff c x y).mpr (addrDecode_inr_iff.mp h))

/-- Masks of rows tell the bit: only rows of one bit share a mask. -/
theorem pixelMask_inj {y y' : Nat} (h : pixelMask y = pixelMask y') : y % 8 = y' % 8 := by
  have hb : y % 8 < 8 := Nat.mod_lt _ (by decide)
  have hbit := pixelMask_getLsbD y' (y % 8) hb
  rw [← h, pixelMask_getLsbD y (y % 8) hb] at hbit
  simpa using hbit

/-- A legal height is a whole number of pages (R7). -/
theorem height_eq_pageCount {c : Config} (hl : c.legal = true) : c.height = 8 * c.pageCount := by
  obtain ⟨-, -, h8, -, -⟩ := (legal_iff c).mp hl
  exact (Nat.mul_div_cancel' (Nat.dvd_of_mod_eq_zero h8)).symm

/-- The eight pixels of a page column share its index, with the masks in the order of their bits (R81 law 5). -/
theorem addrDecode_column {c : Config} {x p b : Nat} (hl : c.legal = true) (hx : x < c.width) (hp : p < c.pageCount)
    (hb : b < 8) : addrDecode c x (8 * p + b) = ⟨true, x + p * c.width, 1#8 <<< b⟩ := by
  have hy : 8 * p + b < c.height := by rw [height_eq_pageCount hl]; omega
  have hpage : (8 * p + b) / 8 = p := by omega
  have hbit : (8 * p + b) % 8 = b := by omega
  rw [addrDecode_inRange ((inRange_iff c x _).mpr ⟨hx, hy⟩), pixelIdx, pixelMask, hpage, hbit]

/-- Distinct in-range coordinates have distinct outputs (R81 law 3). -/
theorem addrDecode_inj {c : Config} {x y x' y' : Nat} (hr : (addrDecode c x y).inr = true)
    (h : addrDecode c x y = addrDecode c x' y') : x = x' ∧ y = y' := by
  have hr' : (addrDecode c x' y').inr = true := h ▸ hr
  obtain ⟨hx, -⟩ := addrDecode_inr_iff.mp hr
  obtain ⟨hx', -⟩ := addrDecode_inr_iff.mp hr'
  rw [addrDecode_of_inr hr, addrDecode_of_inr hr', Decoded.mk.injEq] at h
  obtain ⟨-, hidx, hmask⟩ := h
  exact Prod.mk.inj (pixel_place_inj hx' hx hidx (pixelMask_inj hmask))

/-- Bit `b` of byte `idx` is bit `b` of column `idx mod WIDTH` of page `idx / WIDTH` (R82). -/
theorem addrDecode_inverse {c : Config} {idx b : Nat} (hl : c.legal = true) (hidx : idx < c.bufLen) (hb : b < 8) :
    addrDecode c (idx % c.width) (idx / c.width * 8 + b) = ⟨true, idx, 1#8 <<< b⟩ := by
  obtain ⟨hw, -⟩ := (legal_iff c).mp hl
  have hpage : idx / c.width < c.pageCount := Nat.div_lt_of_lt_mul hidx
  rw [Nat.mul_comm, addrDecode_column hl (Nat.mod_lt _ hw) hpage hb, Nat.mod_add_div']

/-- The last pixel is the top bit of the last byte (R81 law 4). -/
theorem addrDecode_last {c : Config} (hl : c.legal = true) :
    addrDecode c (c.width - 1) (c.height - 1) = ⟨true, c.bufLen - 1, 0x80#8⟩ := by
  obtain ⟨hw, -, -, hp, -⟩ := (legal_iff c).mp hl
  have hy : c.height - 1 = 8 * (c.pageCount - 1) + 7 := by rw [height_eq_pageCount hl]; omega
  have hidx : c.width - 1 + (c.pageCount - 1) * c.width = c.bufLen - 1 := by
    obtain ⟨p, hp⟩ := Nat.exists_eq_add_of_le' hp
    rw [Config.bufLen, hp, Nat.add_sub_cancel, Nat.mul_comm, Nat.mul_succ]
    omega
  rw [hy, addrDecode_column hl (by omega) (by omega) (by decide), hidx]
  rfl

/-- Settles O30: laws 1 and 3 from the formula, 3's other half from the inverse, 4 and 5 from the page column. -/
theorem addressDecoderLaws : Obligations.AddressDecoderLaws := by
  unfold Obligations.AddressDecoderLaws
  refine fun c hl => ⟨fun x y hr => ?mapped, fun x y => addrDecode_inr_iff, fun x y x' y' => addrDecode_inj,
    fun idx b hidx hb => ⟨_, _, addrDecode_inverse hl hidx hb⟩, ⟨bufLen_le hl, addrDecode_last hl⟩,
    fun x p b => addrDecode_column hl⟩
  case mapped =>
    rw [addrDecode_of_inr hr]
    have hin := (inRange_iff c x y).mpr (addrDecode_inr_iff.mp hr)
    exact ⟨pixelIdx_lt hl hin, y % 8, Nat.mod_lt _ (by decide), rfl⟩

/-- Settles O31: column and page are read back from the index. -/
theorem addressDecoderInverse : Obligations.AddressDecoderInverse := by
  unfold Obligations.AddressDecoderInverse
  exact fun c idx b => addrDecode_inverse

/-! ### The three commands that use it -/

/-- The fields that a response word carries, for an index that fits its field (R67). -/
theorem rspWord_fields (st : Status) (inr : Bool) {idx : Nat} (data : Byte) (hidx : idx < 65536) :
    rspInr (rspWord st inr idx data) = inr ∧ rspIdx (rspWord st inr idx data) = idx ∧
      rspData (rspWord st inr idx data) = data := by
  obtain ⟨-, hinr, -, hindex, hdata⟩ := responseWordHasItsFields st inr idx data hidx
  exact ⟨hinr, hindex, hdata⟩

/-- The index of an in-range pixel fits the response's field (R81 law 4). -/
theorem pixelIdx_lt_field {c : Config} {x y : Nat} (hl : c.legal = true) (h : inRange c x y = true) :
    pixelIdx c x y < 65536 :=
  (pixelIdx_lt hl h).trans_le ((bufLen_le hl).trans (by decide))

/-- GET_PIXEL's value is 1 exactly when the mask meets the byte (R93). -/
theorem getBit_eq_one_iff {byte mask : Byte} : getBit byte mask = 0x01#8 ↔ byte &&& mask ≠ 0#8 := by
  unfold getBit
  split <;> simp [*]

/-- Settles O32: in range the three respond with one index, DECODE with the mask that the others use; out of range they
respond alike. -/
theorem oneDecoderForThreeCommands : Obligations.OneDecoderForThreeCommands := by
  unfold Obligations.OneDecoderForThreeCommands
  intro s x y hl
  cases hr : inRange s.cfg x y with
  | true =>
    have hidx := pixelIdx_lt_field hl hr
    refine ⟨_, _, _, exec_decode hl x y, exec_setPixel_inRange hl 1 hr, exec_getPixel_inRange hl hr, ?_⟩
    rw [addrDecode_inRange hr]
    simp [rspWord_fields, hidx, getBit_eq_one_iff, setBit, colourOn]
  | false =>
    refine ⟨_, _, _, exec_decode hl x y, exec_setPixel_outOfRange hl 1 hr, exec_getPixel_outOfRange hl hr, ?_⟩
    rw [addrDecode_outOfRange hr]
    simp [rspWord_fields]

/-- Opcode 4 is DECODE (R63, R83). -/
theorem decodeWord_decode {w : CommandWord} (hop : opField w = 4) :
    decodeWord w = if rsvField w = 0 then .ok (.decode (xField w) (yField w)) else .error .reservedBits := by
  split
  · next hr => rw [decodeWord_of_rsv hr, hop]; rfl
  · next hr => exact decodeWord_of_rsv_ne hr

/-- Settles O29: DECODE responds with the decoder's output, which is the formula in range and 0 out of range. -/
theorem decodeRespondsTheDecoderOutput : Obligations.DecodeRespondsTheDecoderOutput := by
  unfold Obligations.DecodeRespondsTheDecoderOutput
  refine ⟨fun w => decodeWord_decode, fun s x y hl => ?_⟩
  rw [exec_decode hl]
  split
  · next hin =>
    rw [addrDecode_inRange ((inRange_iff s.cfg x y).mpr hin)]
    rfl
  · next hout =>
    have hr : inRange s.cfg x y = false := Bool.eq_false_iff.mpr (mt (inRange_iff s.cfg x y).mp hout)
    rw [addrDecode_outOfRange hr]
    rfl

end Sys2Proof.Machine
end

section
/-! The RMW pixel controller (spec/41_pixel_controller.md R90-R95). SET_PIXEL is described twice: by the one byte it writes
(`exec_setPixel_byte`), and by what it does to an in-range pixel (`exec_setPixel_pixel`). The laws about streams follow from
these two by running the stream command by command. -/

namespace Sys2Proof.Machine

open Sys2Proof

/-! ### What the five commands share -/

/-- A word of a known opcode: RSV 0 leaves it to the opcode map, any other RSV is illegal (R62, R63). -/
theorem decodeWord_of_opField {w : CommandWord} {op : Nat} (hop : opField w = op) :
    decodeWord w =
      if rsvField w = 0 then assignOpcode op (xField w) (yField w) (cField w) else .error .reservedBits := by
  split
  · next hr => rw [decodeWord_of_rsv hr, hop]
  · next hr => exact decodeWord_of_rsv_ne hr

/-- The response OK with every field 0 is the word 0x00000000 (R67, R69). -/
theorem respond_ok_zero (s : State) :
    s.respond .ok false 0 0x00#8 = { s with rsp := 0x00000000#32, rspValid := true } := rfl

theorem inRange_eq_false_iff {c : Config} {x y : Nat} : inRange c x y = false ↔ ¬(x < c.width ∧ y < c.height) := by
  rw [← inRange_iff, Bool.not_eq_true]

theorem indexMapped_eq_false_iff {c : Config} {index : Nat} : indexMapped c index = false ↔ c.bufLen ≤ index := by
  rw [← Bool.not_eq_true, indexMapped_iff, Nat.not_lt]

/-! ### NOP, CLEAR and READ_BYTE -/

/-- Settles O19: the opcode map gives opcode 0 to NOP, which responds the zero word. -/
theorem nopOnlyResponds : Obligations.NopOnlyResponds := by
  unfold Obligations.NopOnlyResponds
  refine ⟨fun w hop => decodeWord_of_opField hop, fun s hl => ?_⟩
  rw [exec_nop hl, respond_ok_zero]

/-- Settles O20: what CLEAR writes depends on the parameters only, so a second one writes the same. -/
theorem clearZeroesTheFramebuffer : Obligations.ClearZeroesTheFramebuffer := by
  unfold Obligations.ClearZeroesTheFramebuffer
  refine ⟨fun w hop => decodeWord_of_opField hop, fun s hl => ⟨_, exec_clear hl, rfl, fun i hi => ?zero, exec_clear hl⟩⟩
  case zero => rw [State.fbByte_respond, State.fbByte_clearFb s hi]

/-- Settles O23: the index is below `BUF_LEN` and is read, or it is not and is ERR_RANGE. -/
theorem readByteReturnsTheByteOrErrRange : Obligations.ReadByteReturnsTheByteOrErrRange := by
  unfold Obligations.ReadByteReturnsTheByteOrErrRange
  refine ⟨fun w hop => decodeWord_of_opField hop, fun s index hl => ⟨fun hlt => ?mapped, fun hge => ?unmapped⟩⟩
  case mapped => exact exec_readByte_mapped hl ((indexMapped_iff s.cfg index).mpr hlt)
  case unmapped => exact exec_readByte_unmapped hl (indexMapped_eq_false_iff.mpr hge)

/-! ### The byte that SET_PIXEL writes -/

/-- The two writes of R92, by the colour operand. -/
theorem setBit_colourOn (old mask : Byte) (c : Nat) :
    setBit old mask (colourOn c) = if c ≠ 0 then old ||| mask else old &&& ~~~mask := by
  simp [setBit, colourOn]

/-- The last write of a row's bit decides it (R95). -/
theorem setBit_setBit (old : Byte) (y : Nat) (on on' : Bool) :
    setBit (setBit old (pixelMask y) on) (pixelMask y) on' = setBit old (pixelMask y) on' := by
  refine BitVec.eq_of_getLsbD_eq fun b hb => ?_
  simp only [setBit_getLsbD _ y b _ hb]
  split <;> rfl

/-- SET_PIXEL in range writes the pixel's byte, responds with it, and changes nothing else (R92). -/
theorem exec_setPixel_byte {s : State} {x y : Nat} (hl : s.cfg.legal = true) (hr : inRange s.cfg x y = true) (c : Nat) :
    ∃ t, exec (.setPixel x y c) s = .next t ∧
      t.fbByte (pixelIdx s.cfg x y) = setBit (s.fbByte (pixelIdx s.cfg x y)) (pixelMask y) (colourOn c) ∧
      (∀ j, j ≠ pixelIdx s.cfg x y → t.fbByte j = s.fbByte j) ∧
      t = { s with
        fb := t.fb
        rsp := rspWord .ok true (pixelIdx s.cfg x y) (t.fbByte (pixelIdx s.cfg x y))
        rspValid := true } := by
  refine ⟨_, exec_setPixel_inRange hl c hr, ?written, fun j hj => ?other, ?frame⟩
  case written => rw [State.fbByte_respond, State.fbByte_writeFb_same]
  case other => rw [State.fbByte_respond, State.fbByte_writeFb_other s _ hj]
  case frame =>
    rw [State.fbByte_respond, State.fbByte_writeFb_same]
    rfl

/-- Settles O21: in range `exec_setPixel_byte` with the two writes of R92, out of range the zero word. -/
theorem setPixelWritesOneBitOfOneByte : Obligations.SetPixelWritesOneBitOfOneByte := by
  unfold Obligations.SetPixelWritesOneBitOfOneByte
  refine ⟨fun w hop => decodeWord_of_opField hop, fun s x y c hl hx hy => ?inRange, fun s x y c hl hout => ?outOfRange⟩
  case inRange =>
    obtain ⟨t, ht, hbyte, hother, hframe⟩ := exec_setPixel_byte hl ((inRange_iff s.cfg x y).mpr ⟨hx, hy⟩) c
    exact ⟨t, t.fbByte (pixelIdx s.cfg x y), ht, hbyte.trans (setBit_colourOn _ _ c), rfl, hother, hframe⟩
  case outOfRange => rw [exec_setPixel_outOfRange hl c (inRange_eq_false_iff.mpr hout), respond_ok_zero]

/-! ### The pixel that SET_PIXEL sets and GET_PIXEL reads -/

/-- SET_PIXEL of any coordinate gives an in-range pixel the colour class if it is the pixel set, and keeps it otherwise
(R92, R164). -/
theorem exec_setPixel_pixel {s t : State} {x y c x' y' : Nat} (h : exec (.setPixel x y c) s = .next t)
    (hr' : inRange s.cfg x' y' = true) :
    t.pixel x' y' = if (x', y') = (x, y) then colourOn c else s.pixel x' y' := by
  obtain ⟨hl, -⟩ := exec_cases h
  cases hr : inRange s.cfg x y with
  | true =>
    obtain ⟨hx, -⟩ := (inRange_iff s.cfg x y).mp hr
    obtain ⟨hx', -⟩ := (inRange_iff s.cfg x' y').mp hr'
    rw [exec_setPixel_inRange hl c hr] at h
    cases h
    split
    · next heq =>
      cases heq
      rw [State.pixel_respond, pixel_writeFb_setBit_same]
    · next hne => rw [State.pixel_respond, pixel_writeFb_setBit_other s _ hx hx' hne]
  | false =>
    have hne : (x', y') ≠ (x, y) := fun heq => by
      cases heq
      simp [hr] at hr'
    rw [exec_setPixel_outOfRange hl c hr] at h
    cases h
    rw [State.pixel_respond, if_neg hne]

/-- GET_PIXEL in range responds with the index and the pixel (R93). -/
theorem exec_getPixel_pixel {s : State} {x y : Nat} (hl : s.cfg.legal = true) (hr : inRange s.cfg x y = true) :
    exec (.getPixel x y) s =
      .next (s.respond .ok true (pixelIdx s.cfg x y) (if s.pixel x y then 0x01#8 else 0x00#8)) := by
  rw [exec_getPixel_inRange hl hr, getBit_eq, State.pixel]

/-- Settles O22: in range the response carries the pixel, out of range it is the zero word. -/
theorem getPixelReadsOneBit : Obligations.GetPixelReadsOneBit := by
  unfold Obligations.GetPixelReadsOneBit
  refine ⟨fun w hop => decodeWord_of_opField hop, fun s x y hl hx hy => ?inRange, fun s x y hl hout => ?outOfRange⟩
  case inRange => exact exec_getPixel_pixel hl ((inRange_iff s.cfg x y).mpr ⟨hx, hy⟩)
  case outOfRange => rw [exec_getPixel_outOfRange hl (inRange_eq_false_iff.mpr hout), respond_ok_zero]

/-! ### The laws about two commands -/

/-- A stream goes on with its rest after its first command (R50). -/
theorem execStream_cons {i : Instr} {s t : State} (h : exec i s = .next t) (rest : List Instr) :
    execStream (i :: rest) s = execStream rest t := by
  simp [execStream, h]

/-- A stream of two commands ends where the second ends. -/
theorem execStream_pair {i j : Instr} {s t u : State} (hi : exec i s = .next t) (hj : exec j t = .next u) :
    execStream [i, j] s = .next u := by
  rw [execStream_cons hi, execStream_cons hj]
  rfl

/-- Settles O26: the second write of the bit decides it, and neither write touches another byte. -/
theorem setThenClearKeepsTheOtherBits : Obligations.SetThenClearKeepsTheOtherBits := by
  unfold Obligations.SetThenClearKeepsTheOtherBits
  intro s x y hl hx hy
  have hr := (inRange_iff s.cfg x y).mpr ⟨hx, hy⟩
  obtain ⟨t, hset, hbyte, hother, -⟩ := exec_setPixel_byte hl hr 1
  have hcfg := (exec_frame hset).cfg
  rw [← hcfg] at hl hr
  obtain ⟨u, hclear, hbyte', hother', -⟩ := exec_setPixel_byte hl hr 0
  rw [hcfg] at hbyte' hother'
  refine ⟨u, execStream_pair hset hclear, ?byte, fun j hj => (hother' j hj).trans (hother j hj)⟩
  case byte =>
    rw [hbyte, setBit_setBit] at hbyte'
    exact hbyte'

/-- Settles O28: the pixel that GET_PIXEL reads is the one that SET_PIXEL has just given its colour class. -/
theorem setThenGetReturnsTheColour : Obligations.SetThenGetReturnsTheColour := by
  unfold Obligations.SetThenGetReturnsTheColour
  intro s x y c hl hx hy
  have hr := (inRange_iff s.cfg x y).mpr ⟨hx, hy⟩
  obtain ⟨t, hset, -⟩ := exec_setPixel_byte hl hr c
  have hpixel : t.pixel x y = colourOn c := by rw [exec_setPixel_pixel hset hr, if_pos rfl]
  have hcfg := (exec_frame hset).cfg
  refine ⟨_, execStream_pair hset (exec_getPixel_pixel (hcfg ▸ hl) (hcfg ▸ hr)), ?_⟩
  rw [State.respond_rsp, hpixel, hcfg, pixelIdx]
  simp [colourOn]

/-! ### Setting every pixel -/

/-- A stream of SET_PIXEL with colour 1 sets the in-range pixels it names, keeps every other in-range pixel, and keeps the
parameters (R92, R95). -/
theorem execStream_setPixels_pixel (ps : List (Nat × Nat)) {s : State} (hl : s.cfg.legal = true) :
    ∃ t, execStream (ps.map fun p => .setPixel p.1 p.2 1) s = .next t ∧ t.cfg = s.cfg ∧
      ∀ x y, inRange s.cfg x y = true → t.pixel x y = (decide ((x, y) ∈ ps) || s.pixel x y) := by
  induction ps generalizing s with
  | nil => exact ⟨s, rfl, rfl, fun x y _ => by simp⟩
  | cons p rest ih =>
    obtain ⟨-, u, hu⟩ | ⟨hil, -⟩ := exec_total (.setPixel p.1 p.2 1) s
    · have hcfg := (exec_frame hu).cfg
      obtain ⟨t, ht, htcfg, hpixel⟩ := ih (hcfg ▸ hl)
      refine ⟨t, (execStream_cons hu _).trans ht, htcfg.trans hcfg, fun x y hr => ?_⟩
      rw [hpixel x y (hcfg ▸ hr), exec_setPixel_pixel hu hr]
      by_cases heq : (x, y) = p <;> simp [heq, colourOn]
    · simp [hl] at hil

/-- Bit `b` of a mapped byte is an in-range pixel (R82). -/
theorem pixel_of_bit {s : State} {i b : Nat} (hl : s.cfg.legal = true) (hi : i < s.cfg.bufLen) (hb : b < 8) :
    inRange s.cfg (pixelX s.cfg i) (pixelY s.cfg i b) = true ∧
      s.pixel (pixelX s.cfg i) (pixelY s.cfg i b) = (s.fbByte i).getLsbD b := by
  have hdec : addrDecode s.cfg (pixelX s.cfg i) (pixelY s.cfg i b) = ⟨true, i, 1#8 <<< b⟩ := addrDecode_inverse hl hi hb
  have hinr : (addrDecode s.cfg (pixelX s.cfg i) (pixelY s.cfg i b)).inr = true := by rw [hdec]
  have hidx : pixelIdx s.cfg (pixelX s.cfg i) (pixelY s.cfg i b) = i :=
    congrArg Decoded.idx ((addrDecode_of_inr hinr).symm.trans hdec)
  have hbit : pixelY s.cfg i b % 8 = b := by rw [pixelY]; omega
  exact ⟨(inRange_iff _ _ _).mpr (addrDecode_inr_iff.mp hinr), by rw [State.pixel, hidx, hbit]⟩

/-- A mapped byte of a framebuffer whose in-range pixels are all on is 0xFF (R22). -/
theorem fbByte_eq_ones {s : State} (hl : s.cfg.legal = true)
    (hon : ∀ x y, inRange s.cfg x y = true → s.pixel x y = true) {i : Nat} (hi : i < s.cfg.bufLen) :
    s.fbByte i = 0xFF#8 := by
  refine BitVec.eq_of_getLsbD_eq fun b hb => ?_
  obtain ⟨hr, hpixel⟩ := pixel_of_bit hl hi hb
  have hones : ∀ k < 8, (0xFF#8).getLsbD k = true := by decide
  rw [← hpixel, hon _ _ hr, hones b hb]

/-- Settles O27: after the stream every in-range pixel is on, because the stream names it. -/
theorem settingEveryPixelFillsTheFramebuffer : Obligations.SettingEveryPixelFillsTheFramebuffer := by
  unfold Obligations.SettingEveryPixelFillsTheFramebuffer
  intro s ps hl hall
  obtain ⟨t, ht, hcfg, hpixel⟩ := execStream_setPixels_pixel ps hl
  have hon : ∀ x y, inRange t.cfg x y = true → t.pixel x y = true := fun x y hr => by
    rw [hcfg] at hr
    obtain ⟨hx, hy⟩ := (inRange_iff s.cfg x y).mp hr
    rw [hpixel x y hr, decide_eq_true (hall x y hx hy), Bool.true_or]
  exact ⟨t, ht, fun i hi => fbByte_eq_ones (hcfg ▸ hl) hon (hcfg ▸ hi)⟩

end Sys2Proof.Machine
end

section
/-! The page sequencer seen from outside (spec/42_page_sequencer.md R110, R117, R119): a sequence waits for the sink, only
reset leads back to UNINIT, and no command but INIT and UPDATE moves the sequencer. -/

namespace Sys2Proof.Machine

open Sys2Proof

/-! ### Waiting for the sink -/

/-- Every place of a sequence but the clear emits a transaction (R112, R113). -/
theorem seqTx_isSome {s : State} (hi : s.seq.phase ≠ .idle) (hcl : s.seq.phase ≠ .initClear) : s.seqTx.isSome = true := by
  unfold State.seqTx
  cases hph : s.seq.phase with
  | idle => exact absurd hph hi
  | initClear => exact absurd hph hcl
  | _ => rfl

/-- At a place that emits, a run against a stalled sink only offers the transaction of the place (R117). -/
theorem runSequence_of_sinkStalls {s : State} (hi : s.seq.phase ≠ .idle) (hcl : s.seq.phase ≠ .initClear)
    (hroom : s.ports.txRoom = some 0) : s.runSequence = { s with txOffer := s.seqTx } := by
  have hwaits : s.seqWaits = true := by simp [State.seqWaits, State.sinkStalls, seqTx_isSome hi hcl, hroom]
  have hfuel : seqFuel s.cfg = 23 + s.cfg.transferLen + 1 := by rw [seqFuel]; omega
  rw [State.runSequence, hfuel, seqRun, if_neg hi, if_pos hwaits]

/-- Under the invariant that transaction is offered already, so the run changes nothing. -/
theorem State.Inv.runSequence_eq_self {s : State} (h : s.Inv) (hi : s.seq.phase ≠ .idle)
    (hroom : s.ports.txRoom = some 0) : s.runSequence = s := by
  rw [runSequence_of_sinkStalls hi h.noWaitInClear hroom, ← h.offer]

/-- A block with the invariant and a sequence in progress, not in reset, resumes the sequence. -/
theorem State.Inv.blockMove_resumes {s : State} (h : s.Inv) (hi : s.seq.phase ≠ .idle) (hrst : s.ports.rst = false) :
    blockMove s = .next s.runSequence := by
  obtain ⟨hb, hv⟩ := h.progress.mp hi
  simp [blockMove, resume, hrst, hb, hv, h.cursor]

/-- Settles O15: the step resumes the sequence, and against a stalled sink that changes nothing. -/
theorem sequenceWaitsForTheSink : Obligations.SequenceWaitsForTheSink := by
  unfold Obligations.SequenceWaitsForTheSink
  intro s h hne hrst hroom
  have hi : s.takeEvent.seq.phase ≠ .idle := by simpa using hne
  calc step s = blockMove s.takeEvent := step_legal h.legal
    _ = .next s.takeEvent.runSequence := h.takeEvent_inv.blockMove_resumes hi hrst
    _ = .next s.takeEvent := by rw [h.takeEvent_inv.runSequence_eq_self hi hroom]

/-! ### Back to UNINIT -/

/-- A run of a sequence leads to UNINIT from UNINIT only: it ends in READY, or waits in UPDATING or where it began. -/
theorem uninit_of_runSequence {s : State} (hl : s.cfg.legal = true) (hc : s.placeInRange)
    (hu : s.runSequence.ctrl = .uninit) : s.ctrl = .uninit := by
  by_cases hi : s.seq.phase = .idle
  · rwa [runSequence_idle hi] at hu
  · rcases runSequence_cases hl hc hi with ⟨-, hfin⟩ | ⟨n, -, -, hs⟩
    · simp [hfin, seqFinish] at hu
    · rw [hs.ctrl] at hu
      split at hu
      · cases hu
      · exact hu

/-- No command leads to UNINIT from another state. -/
theorem uninit_of_exec {i : Instr} {s t : State} (h : exec i s = .next t) (hu : t.ctrl = .uninit) : s.ctrl = .uninit := by
  obtain ⟨hl, ⟨st, inr, idx, data, rfl⟩ | ⟨-, rfl⟩ | ⟨x, y, c, -, -, rfl⟩ | ⟨-, rfl⟩ | ⟨-, -, rfl⟩⟩ := exec_cases h
  · -- a response
    exact hu
  · -- CLEAR
    exact hu
  · -- SET_PIXEL in range
    exact hu
  · -- INIT
    exact uninit_of_runSequence (s := s.startInit) hl (placeInRange_startInit s) hu
  · -- UPDATE, which begins in UPDATING
    have hstart := uninit_of_runSequence (s := s.startTransfer) hl (placeInRange_startTransfer s) hu
    cases hstart

/-- Nor does a latched word, a command's or an illegal one. -/
theorem uninit_of_runWord {w : CommandWord} {s t : State} (h : runWord w s = .next t) (hu : t.ctrl = .uninit) :
    s.ctrl = .uninit := by
  rcases runWord_next h with ⟨i, -, he⟩ | ⟨-, rfl⟩
  · exact uninit_of_exec he hu
  · exact hu

/-- The moves of a legal block that lead to UNINIT from another state are resets. -/
theorem uninit_of_blockMove {s t : State} (hl : s.cfg.legal = true) (h : blockMove s = .next t) (hu : t.ctrl = .uninit) :
    s.ctrl = .uninit ∨ s.ports.rst = true := by
  rcases blockMove_cases h with ⟨hrst, -⟩ | ⟨-, -, -, -, rfl⟩ | ⟨-, -, -, -, rfl⟩ | ⟨-, -, -, hc, rfl⟩ | ⟨-, -, -, rfl⟩ |
    ⟨-, -, w, rest, -, hw⟩
  · -- reset
    exact .inr hrst
  · -- the response is delivered
    exact .inl hu
  · -- the response is held
    exact .inl hu
  · -- the sequence is resumed
    exact .inl (uninit_of_runSequence hl (placeInRange_of_cursor hc) hu)
  · -- nothing to accept
    exact .inl hu
  · -- a word is accepted
    exact .inl (uninit_of_runWord (s := s.latch w rest) hw hu)

/-- Settles O18: the outside's event leaves `CTRL_STATE` alone, and the block's move is a reset or comes from UNINIT. -/
theorem onlyResetReturnsToUninit : Obligations.OnlyResetReturnsToUninit := by
  unfold Obligations.OnlyResetReturnsToUninit
  intro s t h hu
  obtain ⟨hl, hm⟩ := step_next h
  simpa using uninit_of_blockMove (s := s.takeEvent) (by simpa using hl) hm hu

/-! ### The commands that emit nothing -/

/-- Settles O44: a command that begins no sequence responds, after writing the framebuffer at most. -/
theorem onlyInitAndUpdateDriveTheSequencer : Obligations.OnlyInitAndUpdateDriveTheSequencer := by
  unfold Obligations.OnlyInitAndUpdateDriveTheSequencer
  intro i s t hinit hupdate h
  obtain ⟨-, ⟨st, inr, idx, data, rfl⟩ | ⟨-, rfl⟩ | ⟨x, y, c, -, -, rfl⟩ | ⟨hi, -⟩ | ⟨hi, -⟩⟩ := exec_cases h
  · -- a response
    exact ⟨rfl, rfl, rfl, rfl, rfl, rfl⟩
  · -- CLEAR
    exact ⟨rfl, rfl, rfl, rfl, rfl, rfl⟩
  · -- SET_PIXEL in range
    exact ⟨rfl, rfl, rfl, rfl, rfl, rfl⟩
  · -- INIT
    exact absurd hi hinit
  · -- UPDATE
    exact absurd hi hupdate

end Sys2Proof.Machine
end

section
/-! The transactions of INIT and UPDATE (spec/42_page_sequencer.md R111-R115, R117). A sequence that the sink takes whole
ends in `seqFinish`, one that it takes `n` transactions of is `SeqStalled` after `n`; what is left to say is which
transactions these are, and at which place each stands. -/

namespace Sys2Proof.Machine

open Sys2Proof

/-! ### The transactions in full -/

/-- Settles O33: the model's table is the table of R111, with each parameter at its default. -/
theorem initTableIsTheSpecsTable : Obligations.InitTableIsTheSpecsTable := by
  unfold Obligations.InitTableIsTheSpecsTable
  exact ⟨fun c => rfl, by decide⟩

/-- A transfer is the window and every page. -/
theorem transferTxs_eq (s : State) :
    transferTxs s = windowTxs s.cfg ++ (List.range s.cfg.pageCount).flatMap (pageTxs s) := rfl

/-- Every data byte of a page of the cleared framebuffer is 0 (R112). -/
theorem rowTxs_clearFb (s : State) {p : Nat} (hp : p < s.cfg.pageCount) :
    rowTxs s.clearFb p = List.replicate s.cfg.width (dataTx s.cfg 0x00#8) := by
  refine List.eq_replicate_iff.mpr ⟨by simp, fun t ht => ?_⟩
  obtain ⟨col, hcol, rfl⟩ := List.mem_map.mp ht
  have hbyte : s.clearFb.fbByte (col + p * s.cfg.width) = 0x00#8 :=
    State.fbByte_clearFb s (column_lt (List.mem_range.mp hcol) hp)
  rw [State.clearFb_cfg, hbyte]

/-- The transfer of a cleared framebuffer (R112). -/
theorem transferTxs_clearFb (s : State) :
    transferTxs s.clearFb = windowTxs s.cfg ++ (List.range s.cfg.pageCount).flatMap fun p =>
      cmdTx s.cfg (pageSelByte p) :: List.replicate s.cfg.width (dataTx s.cfg 0x00#8) := by
  rw [transferTxs_eq, State.clearFb_cfg]
  congr 1
  refine List.flatMap_congr fun p hp => ?_
  rw [pageTxs, rowTxs_clearFb s (List.mem_range.mp hp), State.clearFb_cfg]

/-! ### A sink that takes the whole sequence -/

section
variable {s : State} (hl : s.cfg.legal = true)
include hl

/-- A run for which the sink has room ends where the sequence ends. -/
theorem runSequence_completes (hc : s.placeInRange) (hi : s.seq.phase ≠ .idle)
    (hroom : s.roomFor (seqRest s).length = true) : s.runSequence = seqFinish s :=
  seqRun_completes hl hc hi hroom (placesLeft_le hc)

/-- INIT completes in a sink with room for the table and a transfer (R112). -/
theorem exec_init_completes (hroom : s.roomFor (23 + s.cfg.transferLen) = true) :
    exec .init s = .next (seqFinish s.startInit) := by
  have hrest : s.startInit.roomFor (seqRest s.startInit).length = true := by
    rw [seqRest_startInit, initSequenceTxs_length]; exact hroom
  rw [exec_init hl, runSequence_completes (s := s.startInit) hl (placeInRange_startInit s) (by simp) hrest]

/-- UPDATE completes in a sink with room for a transfer (R113). -/
theorem exec_update_completes (hu : s.ctrl ≠ .uninit) (hroom : s.roomFor s.cfg.transferLen = true) :
    exec .update s = .next (seqFinish s.startTransfer) := by
  have hrest : s.startTransfer.roomFor (seqRest s.startTransfer).length = true := by
    rw [seqRest_startTransfer, transferTxs_length]; exact hroom
  rw [exec_update hl hu, runSequence_completes (s := s.startTransfer) hl (placeInRange_startTransfer s) (by simp) hrest]

end

/-- The state a completed INIT ends in: the framebuffer cleared, the whole sequence in TXLOG (R112). -/
theorem seqFinish_startInit (s : State) : seqFinish s.startInit =
    { s with
      fb := s.clearFb.fb
      ctrl := .ready
      seq := (seqFinish s.startInit).seq
      txOffer := none
      txLog := s.txLog ++ initSequenceTxs s
      ports := { s.ports with txRoom := s.roomAfter (23 + s.cfg.transferLen) }
      rsp := 0x00000000#32
      rspValid := true } := by
  rw [← initSequenceTxs_length s]
  rfl

/-- The state a completed UPDATE ends in: the framebuffer as it was, the whole transfer in TXLOG (R113). -/
theorem seqFinish_startTransfer (s : State) : seqFinish s.startTransfer =
    { s with
      ctrl := .ready
      seq := (seqFinish s.startTransfer).seq
      txOffer := none
      txLog := s.txLog ++ transferTxs s
      ports := { s.ports with txRoom := s.roomAfter s.cfg.transferLen }
      rsp := 0x00000000#32
      rspValid := true } := by
  rw [← transferTxs_length s]
  rfl

/-- Settles O34: INIT ends where its sequence ends, and its transfer is that of the cleared framebuffer. -/
theorem initEmitsTheTableThenATransferOfZeros : Obligations.InitEmitsTheTableThenATransferOfZeros := by
  unfold Obligations.InitEmitsTheTableThenATransferOfZeros
  refine ⟨fun w hop => decodeWord_of_opField hop, fun s hl hroom =>
    ⟨_, exec_init_completes hl hroom, fun i hi => ?zero, rfl, rfl, rfl, rfl, ?frame⟩⟩
  case zero =>
    exact (State.fbByte_congr (seqFinish s.startInit) s.clearFb rfl rfl i).trans (State.fbByte_clearFb s hi)
  case frame =>
    rw [seqFinish_startInit, initSequenceTxs, transferTxs_clearFb, ← List.append_assoc, ← List.append_assoc]
    rfl

/-- Settles O35: UPDATE ends where its transfer ends, and in UNINIT it is an error. -/
theorem updateSendsTheWholeFramebuffer : Obligations.UpdateSendsTheWholeFramebuffer := by
  unfold Obligations.UpdateSendsTheWholeFramebuffer
  refine ⟨fun w hop => decodeWord_of_opField hop, fun s hl hu hroom =>
    ⟨_, exec_update_completes hl hu hroom, rfl, rfl, rfl, rfl, ?frame⟩, fun s hl hu => exec_update_uninit hl hu⟩
  case frame =>
    rw [seqFinish_startTransfer, transferTxs_eq, ← List.append_assoc]
    rfl

/-- Settles O42: what an UPDATE sends is read from the framebuffer, which an UPDATE leaves alone. -/
theorem updateTwiceSendsTheSame : Obligations.UpdateTwiceSendsTheSame := by
  unfold Obligations.UpdateTwiceSendsTheSame
  intro s hl hu hroom
  have hfirst : s.roomFor s.cfg.transferLen = true := by rw [State.roomFor, hroom]
  have hsecond : (seqFinish s.startTransfer).roomFor s.cfg.transferLen = true := by
    rw [seqFinish_startTransfer, State.roomFor, State.roomAfter, hroom]
    rfl
  have hsame : transferTxs (seqFinish s.startTransfer) = transferTxs s := transferTxs_congr rfl rfl rfl
  refine ⟨_, _, transferTxs s, exec_update_completes hl hu hfirst,
    exec_update_completes (s := seqFinish s.startTransfer) hl (by simp [seqFinish]) hsecond, rfl, ?_⟩
  rw [← hsame]
  rfl

/-! ### How many transactions, and where -/

/-- The pages before page `p` are `p * (1 + WIDTH)` transactions (R115). -/
theorem pagesFrom_drop (s : State) {p : Nat} (hp : p ≤ s.cfg.pageCount) :
    (pagesFrom s 0).drop (p * (1 + s.cfg.width)) = pagesFrom s p := by
  induction p with
  | zero => simp
  | succ p ih =>
    have hpage : (pageTxs s p).length = 1 + s.cfg.width := by rw [pageTxs_length, Nat.add_comm]
    rw [Nat.succ_mul, ← List.drop_drop, ih (by omega), pagesFrom_of_lt s (by omega), ← hpage, List.drop_left]

/-- Transaction `6 + p * (1 + WIDTH) + k` of a transfer is transaction `k` of page `p` (R115). -/
theorem transferTxs_getElem?_page (s : State) {p k : Nat} (hp : p < s.cfg.pageCount) (hk : k < 1 + s.cfg.width) :
    (transferTxs s)[6 + p * (1 + s.cfg.width) + k]? = (pageTxs s p)[k]? := by
  have hwindow : (transferTxs s).drop 6 = pagesFrom s 0 := List.drop_left' (windowTxs_length s.cfg)
  have hpage : k < (pageTxs s p).length := by rw [pageTxs_length]; omega
  rw [← List.getElem?_drop, ← List.drop_drop, hwindow, pagesFrom_drop s hp.le, pagesFrom_of_lt s hp,
    List.getElem?_append_left hpage]

/-- After its select a page has its data bytes, in column order (R113 (3)). -/
theorem pageTxs_getElem?_succ (s : State) (p : Nat) {col : Nat} (hcol : col < s.cfg.width) :
    (pageTxs s p)[1 + col]? = some (dataTx s.cfg (s.fbByte (col + p * s.cfg.width))) := by
  rw [pageTxs, Nat.add_comm, List.getElem?_cons_succ, rowTxs]
  simp [hcol]

/-- Settles O38: the lengths of the two sequences, and the places of a transfer behind what TXLOG held. -/
theorem transactionCountsAndPositions : Obligations.TransactionCountsAndPositions := by
  unfold Obligations.TransactionCountsAndPositions
  refine ⟨fun s hl hu hroom => ⟨_, exec_update_completes hl hu hroom, ?updateCount,
      fun p hp => ⟨?select, fun col hcol => ?data⟩⟩,
    fun s hl hroom => ⟨_, exec_init_completes hl hroom, ?initCount⟩, by decide⟩
  case updateCount =>
    rw [seqFinish_startTransfer, List.length_append, transferTxs_length, Config.transferLen]
  case select =>
    rw [seqFinish_startTransfer, List.getElem?_append_right (by omega), Nat.add_sub_cancel_left]
    exact transferTxs_getElem?_page s (k := 0) hp (by omega)
  case data =>
    rw [seqFinish_startTransfer, List.getElem?_append_right (by omega), Nat.add_sub_cancel_left, Nat.add_assoc _ 1 col,
      transferTxs_getElem?_page s hp (by omega)]
    exact pageTxs_getElem?_succ s p hcol
  case initCount =>
    rw [seqFinish_startInit, List.length_append, initSequenceTxs_length, Config.transferLen]

/-! ### A sink that stalls -/

/-- A run whose sink has room for `n` transactions, and not for all that is to come, waits after `n` (R117). -/
theorem runSequence_stalls {s : State} {n : Nat} (hl : s.cfg.legal = true) (hc : s.placeInRange)
    (hroom : s.ports.txRoom = some n) (hn : n < (seqRest s).length) : SeqStalled s n s.runSequence :=
  seqRun_stalls hl hc hroom hn (placesLeft_le hc)

/-- Settles O39: both commands run a sequence, which waits after the `n` transactions the sink takes. -/
theorem stalledSequenceHasEmittedAPrefix : Obligations.StalledSequenceHasEmittedAPrefix := by
  unfold Obligations.StalledSequenceHasEmittedAPrefix
  intro s n hl hroom
  refine ⟨fun hn => ?init, fun hu hn => ?update⟩
  case init =>
    have hs : SeqStalled s.startInit n s.startInit.runSequence :=
      runSequence_stalls hl (placeInRange_startInit s) hroom (by simpa using hn)
    exact ⟨_, exec_init hl, hs.txLog, hs.txOffer, hs.rest, hs.notIdle, hs.rsp, hs.rspValid, hs.rspLog⟩
  case update =>
    have hs : SeqStalled s.startTransfer n s.startTransfer.runSequence :=
      runSequence_stalls hl (placeInRange_startTransfer s) hroom (by simpa using hn)
    have hin : s.startTransfer.runSequence.seq.phase.inTransfer = true := hs.forward (by simp)
    exact ⟨_, exec_update hl hu, hs.txLog, hs.txOffer, hs.rest, by simpa using hs.ctrl, hin,
      fbByte_runSequence (s := s.startTransfer) hl (placeInRange_startTransfer s) (by simp) rfl, hs.rsp, hs.rspValid,
      hs.rspLog⟩

end Sys2Proof.Machine
end

section
/-! The streams of the drawing primitives (spec/43_host_primitives.md R140-R146). A stream consists of SET_PIXELs, which act
on an in-range pixel by what the stream says of it (`SetPixelsEffect`); so each law is one about the members of a stream. -/

namespace Sys2Proof.Machine

open Sys2Proof

/-! ### The members of the streams -/

theorem mem_issue_iff {x y c : Nat} {i : Instr} : i ∈ issue x y c ↔ x ≤ 65535 ∧ y ≤ 65535 ∧ i = .setPixel x y c := by
  rcases issue_cases x y c with ⟨hx, hy, hi⟩ | ⟨hout, hi⟩ <;> rw [hi]
  · simp [hx, hy]
  · simp only [List.not_mem_nil, false_iff]
    omega

/-- A column of a bitmap row issues for a source bit of 1 and for no other (R141). -/
theorem mem_bitmapPixel_iff {x y bw row col : Nat} {bitmap : List Byte} {on : Bool} {i : Instr} :
    i ∈ bitmapPixel x y bitmap bw on row col ↔
      (bitmap.getD (row * bw + col / 8) 0x00#8).getLsbD (7 - col % 8) = true ∧
        i ∈ issue (x + col) (y + row) (if on then 1 else 0) := by
  rw [bitmapPixel, ← bitmapMask]
  split
  · next h => exact (and_iff_right h).symm
  · next h => simp only [h, List.not_mem_nil, false_and]

/-- A bitmap that is too short has no meaning (R141, U6). -/
theorem drawBitmap_short {w h : Nat} {bitmap : List Byte} (hs : bitmap.length < h * ((w + 7) / 8)) (x y : Nat) (on : Bool) :
    drawBitmap x y bitmap w h on = .error .bitmapTooShort := by
  simp [drawBitmap, hs]

/-- A bitmap that is long enough issues its rows, each column by column (R141). -/
theorem drawBitmap_long {w h : Nat} {bitmap : List Byte} (hs : h * ((w + 7) / 8) ≤ bitmap.length) (x y : Nat) (on : Bool) :
    drawBitmap x y bitmap w h on = .ok ((List.range h).flatMap fun row =>
      (List.range w).flatMap fun col => bitmapPixel x y bitmap ((w + 7) / 8) on row col) := by
  simp [drawBitmap, Nat.not_lt.mpr hs]

/-- The stream of a bitmap consists of what its columns issue. -/
theorem mem_drawBitmap_iff {x y w h : Nat} {bitmap : List Byte} {on : Bool} {cmds : List Instr}
    (hd : drawBitmap x y bitmap w h on = .ok cmds) {i : Instr} :
    i ∈ cmds ↔ ∃ row < h, ∃ col < w, i ∈ bitmapPixel x y bitmap ((w + 7) / 8) on row col := by
  rcases Nat.lt_or_ge bitmap.length (h * ((w + 7) / 8)) with hs | hs
  · rw [drawBitmap_short hs] at hd
    cases hd
  · rw [drawBitmap_long hs] at hd
    cases hd
    simp only [List.mem_flatMap, List.mem_range]

/-- The stream of a glyph consists of what is issued for the places of its cell (R143). -/
theorem mem_drawGlyph_iff {g : Fin 5 → Byte} {cx cy : Nat} {i : Instr} :
    i ∈ drawGlyph g cx cy ↔
      ∃ col : Fin 5, ∃ j < 7, i ∈ issue (cx + col.val) (cy + j) (((g col) >>> j) &&& 1#8).toNat := by
  simp only [drawGlyph, List.mem_flatMap, List.mem_finRange, List.mem_range, true_and]

/-- Every command of a text is one of a glyph, wherever the wrap puts it. -/
theorem exists_glyph_of_mem_drawGlyphs {hp : HostParams} {font : Byte → Fin 5 → Byte} {px cx cy : Nat} {text : List Byte}
    {i : Instr} (hi : i ∈ drawGlyphs hp font px cx cy text) : ∃ ch x y, i ∈ drawGlyph (font ch) x y := by
  induction text generalizing cx cy with
  | nil => simp [drawGlyphs] at hi
  | cons ch rest ih =>
    rw [drawGlyphs_cons_of_wrapCursor rfl, List.mem_append] at hi
    rcases hi with hglyph | hrest
    · exact ⟨ch, _, _, hglyph⟩
    · exact ih hrest

/-- A point of a circle issues a SET_PIXEL with colour 1 where a field can hold it (R145). -/
theorem mem_circlePixel {p : Int × Int} {i : Instr} (hi : i ∈ circlePixel p) : i ∈ issue p.1.toNat p.2.toNat 1 := by
  unfold circlePixel at hi
  split at hi
  · exact mem_issue_iff.mpr ⟨by omega, by omega, List.mem_singleton.mp hi⟩
  · simp at hi

/-! ### The commands of the streams -/

/-- The commands of a bitmap are encodable SET_PIXELs of its colour class (R140, R141). -/
theorem drawBitmap_setPixels {x y w h : Nat} {bitmap : List Byte} {on : Bool} {cmds : List Instr}
    (hd : drawBitmap x y bitmap w h on = .ok cmds) {i : Instr} (hi : i ∈ cmds) :
    i.wf = true ∧ ∃ px py, i = .setPixel px py (if on then 1 else 0) := by
  obtain ⟨row, -, col, -, hpixel⟩ := (mem_drawBitmap_iff hd).mp hi
  obtain ⟨hwf, heq⟩ := issue_wf (by split <;> decide) (mem_bitmapPixel_iff.mp hpixel).2
  exact ⟨hwf, _, _, heq⟩

/-- The commands of a glyph are encodable SET_PIXELs (R140, R143). -/
theorem drawGlyph_setPixels {g : Fin 5 → Byte} {cx cy : Nat} {i : Instr} (hi : i ∈ drawGlyph g cx cy) :
    i.wf = true ∧ ∃ x y c, i = .setPixel x y c := by
  obtain ⟨col, j, -, hissue⟩ := mem_drawGlyph_iff.mp hi
  obtain ⟨hwf, heq⟩ := issue_wf (BitVec.isLt _) hissue
  exact ⟨hwf, _, _, _, heq⟩

/-- The commands of a circle are encodable SET_PIXELs with colour 1 (R145). -/
theorem drawCircle_setPixels {hp : HostParams} {pt : Int → Int → Int → Nat → Int × Int} {xc yc r : Int} {i : Instr}
    (hi : i ∈ drawCircle hp pt xc yc r) : i.wf = true ∧ ∃ x y, i = .setPixel x y 1 := by
  obtain ⟨k, -, hpoint⟩ := List.mem_flatMap.mp hi
  obtain ⟨hwf, heq⟩ := issue_wf (by decide) (mem_circlePixel hpoint)
  exact ⟨hwf, _, _, heq⟩

/-- Settles O55: a bitmap's column, a glyph's place and a circle's point each issue encodable SET_PIXELs. -/
theorem streamsAreEncodableSetPixels : Obligations.StreamsAreEncodableSetPixels := by
  unfold Obligations.StreamsAreEncodableSetPixels
  refine ⟨fun x y bitmap w h on cmds hd i hi => drawBitmap_setPixels hd hi,
    fun hp font px py text cmds hd i hi => ?text, fun hp pt xc yc r i hi => drawCircle_setPixels hi⟩
  case text =>
    rcases drawString_cases hp font px py text with ⟨-, hok⟩ | ⟨-, hrefused⟩
    · rw [hok] at hd
      cases hd
      obtain ⟨ch, x, y, hglyph⟩ := exists_glyph_of_mem_drawGlyphs hi
      exact drawGlyph_setPixels hglyph
    · rw [hrefused] at hd
      cases hd

/-- Settles O56: an empty rectangle needs no byte and has no column to issue, an empty text has no glyph. -/
theorem shortBitmapsAreRefusedAndEmptyDrawsIssueNothing :
    Obligations.ShortBitmapsAreRefusedAndEmptyDrawsIssueNothing := by
  unfold Obligations.ShortBitmapsAreRefusedAndEmptyDrawsIssueNothing
  refine fun x y w h bitmap on => ⟨fun hs => drawBitmap_short hs x y on, ?noColumns, ?noRows, fun hp font hl => ?noText⟩
  case noColumns =>
    rw [drawBitmap_long (by simp)]
    simp
  case noRows =>
    rw [drawBitmap_long (by simp)]
    simp
  case noText =>
    rw [drawString_legal hl, drawGlyphs]

/-! ### What a stream of SET_PIXELs does -/

/-- A stream of SET_PIXELs took `s` to `t`: the parameters and the unmapped bytes are kept, and an in-range pixel to which
the stream gives no colour class but `on` has that class afterwards, if the stream names it or it had the class before. -/
structure SetPixelsEffect (cmds : List Instr) (s t : State) : Prop where
  cfg : t.cfg = s.cfg
  unmapped : ∀ i, s.cfg.bufLen ≤ i → t.fbByte i = s.fbByte i
  pixel : ∀ x y on, inRange s.cfg x y = true → (∀ c, .setPixel x y c ∈ cmds → colourOn c = on) →
    ((∃ c, .setPixel x y c ∈ cmds) ∨ s.pixel x y = on) → t.pixel x y = on

/-- SET_PIXEL writes no unmapped byte (R48, R92). -/
theorem exec_setPixel_unmapped {s t : State} {x y c i : Nat} (h : exec (.setPixel x y c) s = .next t)
    (hi : s.cfg.bufLen ≤ i) : t.fbByte i = s.fbByte i := by
  obtain ⟨hl, -⟩ := exec_cases h
  cases hr : inRange s.cfg x y with
  | true =>
    have hlt := pixelIdx_lt hl hr
    obtain ⟨u, hu, -, hother, -⟩ := exec_setPixel_byte hl hr c
    rw [hu] at h
    cases h
    exact hother i (by omega)
  | false =>
    rw [exec_setPixel_outOfRange hl c hr] at h
    cases h
    exact State.fbByte_respond s _ _ _ _ i

/-- One more SET_PIXEL in front of a stream: the pixel it names has its colour class from then on. -/
theorem SetPixelsEffect.cons {x y c : Nat} {rest : List Instr} {s u t : State} (hu : exec (.setPixel x y c) s = .next u)
    (ht : SetPixelsEffect rest u t) : SetPixelsEffect (.setPixel x y c :: rest) s t := by
  have hcfg := (exec_frame hu).cfg
  refine ⟨ht.cfg.trans hcfg, fun i hi => (ht.unmapped i (hcfg ▸ hi)).trans (exec_setPixel_unmapped hu hi),
    fun x' y' on hr hagree hor => ht.pixel x' y' on (hcfg ▸ hr) (fun c' hc' => hagree c' (List.mem_cons_of_mem _ hc')) ?_⟩
  rw [exec_setPixel_pixel hu hr]
  by_cases heq : (x', y') = (x, y)
  · cases heq
    exact .inr (by rw [if_pos rfl, hagree c List.mem_cons_self])
  · have hne : ∀ c', Instr.setPixel x' y' c' ≠ .setPixel x y c := fun c' he => by
      cases he
      exact heq rfl
    rw [if_neg heq]
    exact hor.imp_left fun ⟨c', hc'⟩ => ⟨c', List.mem_of_ne_of_mem (hne c') hc'⟩

/-- A stream of SET_PIXELs runs to its end in a legal configuration, and has its effect. -/
theorem execStream_setPixels {cmds : List Instr} (hcmds : ∀ i ∈ cmds, ∃ x y c, i = .setPixel x y c) {s : State}
    (hl : s.cfg.legal = true) : ∃ t, execStream cmds s = .next t ∧ SetPixelsEffect cmds s t := by
  induction cmds generalizing s with
  | nil => exact ⟨s, rfl, rfl, fun _ _ => rfl, fun x y on _ _ hor => hor.resolve_left (by simp)⟩
  | cons i rest ih =>
    obtain ⟨⟨x, y, c, rfl⟩, hrest⟩ := List.forall_mem_cons.mp hcmds
    obtain ⟨-, u, hu⟩ | ⟨hil, -⟩ := exec_total (.setPixel x y c) s
    · obtain ⟨t, ht, heffect⟩ := ih hrest ((exec_frame hu).cfg ▸ hl)
      exact ⟨t, (execStream_cons hu rest).trans ht, .cons hu heffect⟩
    · simp [hl] at hil

section
variable {cmds : List Instr} {s t : State} (h : SetPixelsEffect cmds s t)
include h

/-- An in-range pixel that the stream does not name is kept. -/
theorem SetPixelsEffect.pixel_kept {x y : Nat} (hr : inRange s.cfg x y = true) (hnot : ∀ c, .setPixel x y c ∉ cmds) :
    t.pixel x y = s.pixel x y :=
  h.pixel x y _ hr (fun c hc => absurd hc (hnot c)) (.inr rfl)

/-- A stream that only sets turns on the in-range pixels it names and keeps the others. -/
theorem SetPixelsEffect.pixel_iff (hsets : ∀ x y c, .setPixel x y c ∈ cmds → colourOn c = true) {x y : Nat}
    (hr : inRange s.cfg x y = true) : t.pixel x y = true ↔ s.pixel x y = true ∨ ∃ c, .setPixel x y c ∈ cmds := by
  refine ⟨fun ht => ?_, fun hor => h.pixel x y true hr (hsets x y) hor.symm⟩
  by_cases hnamed : ∃ c, .setPixel x y c ∈ cmds
  · exact .inr hnamed
  · exact .inl (h.pixel_kept hr (not_exists.mp hnamed) ▸ ht)

/-- A relation between the bits before and after a stream holds of every byte if it holds of the in-range pixels, and of a
bit and itself. -/
theorem SetPixelsEffect.bits (hl : s.cfg.legal = true) {R : Bool → Bool → Prop} (hrefl : ∀ a, R a a)
    (hpixels : ∀ x y, inRange s.cfg x y = true → R (s.pixel x y) (t.pixel x y)) {i b : Nat} (hb : b < 8) :
    R ((s.fbByte i).getLsbD b) ((t.fbByte i).getLsbD b) := by
  rcases Nat.lt_or_ge i s.cfg.bufLen with hi | hi
  · obtain ⟨hr, hs⟩ := pixel_of_bit hl hi hb
    obtain ⟨-, ht⟩ := pixel_of_bit (s := t) (h.cfg ▸ hl) (h.cfg ▸ hi) hb
    rw [h.cfg] at ht
    rw [← hs, ← ht]
    exact hpixels _ _ hr
  · rw [h.unmapped i hi]
    exact hrefl _

end

/-! ### Bitmaps and glyphs -/

/-- A field can hold an in-range coordinate: `WIDTH <= 256` and `HEIGHT <= 64` (R7, R80). -/
theorem encodable_of_inRange {c : Config} {x y : Nat} (hl : c.legal = true) (hr : inRange c x y = true) :
    x ≤ 65535 ∧ y ≤ 65535 := by
  obtain ⟨-, hw, -, -, hp⟩ := (legal_iff c).mp hl
  obtain ⟨hx, hy⟩ := (inRange_iff c x y).mp hr
  rw [height_eq_pageCount hl] at hy
  omega

/-- The stream of a bitmap with colour on names an in-range pixel where a source bit of 1 falls on it (R141). -/
theorem drawBitmap_names_iff {c : Config} (hl : c.legal = true) {x y w h : Nat} {bitmap : List Byte} {cmds : List Instr}
    (hd : drawBitmap x y bitmap w h true = .ok cmds) {px py : Nat} (hr : inRange c px py = true) :
    (∃ k, .setPixel px py k ∈ cmds) ↔ ∃ row col, row < h ∧ col < w ∧ px = x + col ∧ py = y + row ∧
      (bitmap.getD (row * ((w + 7) / 8) + col / 8) 0x00#8).getLsbD (7 - col % 8) = true := by
  simp only [mem_drawBitmap_iff hd, mem_bitmapPixel_iff, mem_issue_iff, Instr.setPixel.injEq]
  constructor
  · rintro ⟨k, row, hrow, col, hcol, hbit, -, -, hx, hy, -⟩
    exact ⟨row, col, hrow, hcol, hx, hy, hbit⟩
  · rintro ⟨row, col, hrow, hcol, rfl, rfl, hbit⟩
    obtain ⟨hx, hy⟩ := encodable_of_inRange hl hr
    exact ⟨_, row, hrow, col, hcol, hbit, hx, hy, rfl, rfl, rfl⟩

/-- Settles O52: the stream only sets, so a pixel is on after one run or after two if it was on or the stream names it. -/
theorem drawBitmapOnlySetsAndIsIdempotent : Obligations.DrawBitmapOnlySetsAndIsIdempotent := by
  unfold Obligations.DrawBitmapOnlySetsAndIsIdempotent
  intro s x y w h bitmap cmds hl hd
  have hcmds : ∀ i ∈ cmds, ∃ x y c, i = .setPixel x y c := fun i hi =>
    let ⟨_, px, py, heq⟩ := drawBitmap_setPixels hd hi
    ⟨px, py, 1, heq⟩
  have hsets : ∀ px py c, .setPixel px py c ∈ cmds → colourOn c = true := fun px py c hc => by
    obtain ⟨-, _, _, heq⟩ := drawBitmap_setPixels hd hc
    cases heq
    rfl
  obtain ⟨t, hst, once⟩ := execStream_setPixels hcmds hl
  have hlt : t.cfg.legal = true := once.cfg ▸ hl
  obtain ⟨u, htu, twice⟩ := execStream_setPixels hcmds hlt
  refine ⟨t, u, hst, htu, fun px py hx hy => ?pixels, fun i b hb => ?onlySets, fun i => ?idempotent⟩
  case pixels =>
    have hr := (inRange_iff s.cfg px py).mpr ⟨hx, hy⟩
    rw [once.pixel_iff hsets hr, drawBitmap_names_iff hl hd hr]
  case onlySets =>
    exact once.bits hl (R := fun a b => a = true → b = true) (fun _ => id)
      (fun px py hr hs => (once.pixel_iff hsets hr).mpr (.inl hs)) hb
  case idempotent =>
    refine BitVec.eq_of_getLsbD_eq fun b hb => (twice.bits hlt (R := Eq) (fun _ => rfl) (fun px py hr => ?_) hb).symm
    rw [Bool.eq_iff_iff, twice.pixel_iff hsets hr, once.pixel_iff hsets (once.cfg ▸ hr), or_assoc, or_self]

/-- The colour of a place of a glyph's cell is the bit of its column (R143). -/
theorem colourOn_glyphBit (b : Byte) (j : Nat) : colourOn ((b >>> j) &&& 1#8).toNat = b.getLsbD j := by
  rw [BitVec.and_one_eq_setWidth_ofBool_getLsbD, BitVec.getLsbD_ushiftRight, Nat.add_zero]
  cases b.getLsbD j <;> rfl

/-- Every SET_PIXEL of a glyph is at a place of its cell and has the glyph's bit there (R143). -/
theorem setPixel_mem_drawGlyph {g : Fin 5 → Byte} {cx cy x y c : Nat} (hm : .setPixel x y c ∈ drawGlyph g cx cy) :
    ∃ col : Fin 5, ∃ j < 7, x = cx + col.val ∧ y = cy + j ∧ colourOn c = (g col).getLsbD j := by
  obtain ⟨col, j, hj, hissue⟩ := mem_drawGlyph_iff.mp hm
  obtain ⟨-, -, heq⟩ := mem_issue_iff.mp hissue
  cases heq
  exact ⟨col, j, hj, rfl, rfl, colourOn_glyphBit (g col) j⟩

/-- Settles O53: the places of the cell are distinct, so the stream gives each its own bit and names no other pixel. -/
theorem drawGlyphOverwritesItsCell : Obligations.DrawGlyphOverwritesItsCell := by
  unfold Obligations.DrawGlyphOverwritesItsCell
  intro s g cx cy hl
  have hcmds : ∀ i ∈ drawGlyph g cx cy, ∃ x y c, i = .setPixel x y c := fun i hi => (drawGlyph_setPixels hi).2
  obtain ⟨t, ht, heffect⟩ := execStream_setPixels hcmds hl
  refine ⟨t, ht, fun x y hx hy => ?_⟩
  have hr := (inRange_iff s.cfg x y).mpr ⟨hx, hy⟩
  refine ⟨fun col j hj hcol hrow => ?cell, fun hout => ?outside⟩
  case cell =>
    refine heffect.pixel x y _ hr (fun c hc => ?agree) (.inl ⟨(((g col) >>> j) &&& 1#8).toNat, ?named⟩)
    case agree =>
      obtain ⟨col', j', -, hcol', hrow', hbit⟩ := setPixel_mem_drawGlyph hc
      rw [hbit, show col' = col by omega, show j' = j by omega]
    case named =>
      obtain ⟨hxf, hyf⟩ := encodable_of_inRange hl hr
      subst hcol hrow
      exact mem_drawGlyph_iff.mpr ⟨col, j, hj, mem_issue_iff.mpr ⟨hxf, hyf, rfl⟩⟩
  case outside =>
    refine heffect.pixel_kept hr fun c hc => ?_
    obtain ⟨col, j, hj, hcol, hrow, -⟩ := setPixel_mem_drawGlyph hc
    omega

end Sys2Proof.Machine
end

section
/-! Errors (spec/60_exceptions.md R160-R168). What is answered with an error is one of the three causes of R161 to R163, each
of which only responds (`exec_error_cases`, `runWord_error_cases`); and in a legal configuration every command, every latched
word and every step goes on. -/

namespace Sys2Proof.Machine

open Sys2Proof

/-! ### The answers that are no error -/

/-- The status of a response word, whatever its index: the index is cut to its field (R67). -/
@[simp] theorem rspStatus_rspWord (st : Status) (inr : Bool) (idx : Nat) (data : Byte) :
    rspStatus (rspWord st inr idx data) = statusCode st := by
  obtain ⟨hstatus, -⟩ := rspFields_toNat (rspWord st inr idx data)
  rw [rspWord_toNat] at hstatus
  have hinr := inr.toNat_lt
  have hdata := data.isLt
  exact BitVec.eq_of_toNat_eq (by omega)

/-- A command that responds OK, after writing the framebuffer or not, is answered with status 0. -/
theorem status_zero_of_exec_ok {i : Instr} {s t u : State} {inr : Bool} {idx : Nat} {data : Byte} (h : exec i s = .next t)
    (hok : exec i s = .next (u.respond .ok inr idx data)) : rspStatus t.rsp = 0#4 := by
  obtain rfl : u.respond .ok inr idx data = t := by simpa [hok] using h
  exact rspStatus_rspWord .ok inr idx data

/-- A sequence that is answered has ended, and is answered OK (R112, R113). -/
theorem status_zero_of_runSequence {s : State} (hl : s.cfg.legal = true) (hc : s.placeInRange) (hi : s.seq.phase ≠ .idle)
    (hv : s.rspValid = false) (ht : s.runSequence.rspValid = true) : rspStatus s.runSequence.rsp = 0#4 := by
  rcases runSequence_cases hl hc hi with ⟨-, hfin⟩ | ⟨n, -, -, hs⟩
  · rw [hfin]
    exact rspStatus_rspWord .ok false 0 0x00#8
  · -- a sequence that waits has no response
    simp [hs.rspValid, hv] at ht

/-! ### The causes of an error -/

/-- All that a command answered with an error can be: an UPDATE in UNINIT, or a READ_BYTE of an unmapped index; and all that
it does is respond (R162, R163, R165). -/
theorem exec_error_cases {i : Instr} {s t : State} (hv : s.rspValid = false) (h : exec i s = .next t)
    (ht : t.rspValid = true) (herr : rspStatus t.rsp ≠ 0#4) :
    (i = .update ∧ s.ctrl = .uninit ∧ t = s.respond .errState false 0 0x00#8) ∨
    (∃ index, i = .readByte index ∧ s.cfg.bufLen ≤ index ∧ t = s.respond .errRange false 0 0x00#8) := by
  obtain ⟨hl, -⟩ := exec_cases h
  cases i with
  | nop => exact absurd (status_zero_of_exec_ok h (exec_nop hl)) herr
  | clear => exact absurd (status_zero_of_exec_ok h (exec_clear hl)) herr
  | setPixel x y c =>
    cases hr : inRange s.cfg x y with
    | true => exact absurd (status_zero_of_exec_ok h (exec_setPixel_inRange hl c hr)) herr
    | false => exact absurd (status_zero_of_exec_ok h (exec_setPixel_outOfRange hl c hr)) herr
  | getPixel x y =>
    cases hr : inRange s.cfg x y with
    | true => exact absurd (status_zero_of_exec_ok h (exec_getPixel_inRange hl hr)) herr
    | false => exact absurd (status_zero_of_exec_ok h (exec_getPixel_outOfRange hl hr)) herr
  | decode x y => exact absurd (status_zero_of_exec_ok h (exec_decode hl x y)) herr
  | readByte index =>
    cases hm : indexMapped s.cfg index with
    | true => exact absurd (status_zero_of_exec_ok h (exec_readByte_mapped hl hm)) herr
    | false =>
      rw [exec_readByte_unmapped hl hm] at h
      cases h
      exact .inr ⟨index, rfl, indexMapped_eq_false_iff.mp hm, rfl⟩
  | init =>
    rw [exec_init hl] at h
    cases h
    exact absurd (status_zero_of_runSequence (s := s.startInit) hl (placeInRange_startInit s) (by simp) hv ht) herr
  | update =>
    by_cases hu : s.ctrl = .uninit
    · rw [exec_update_uninit hl hu] at h
      cases h
      exact .inl ⟨rfl, hu, rfl⟩
    · rw [exec_update hl hu] at h
      cases h
      exact absurd (status_zero_of_runSequence (s := s.startTransfer) hl (placeInRange_startTransfer s) (by simp) hv ht) herr

/-- All that a word answered with an error can be: an illegal word, or one of the two commands with an error; and all that
it does is respond (R161, R162, R163, R165). -/
theorem runWord_error_cases {w : CommandWord} {s t : State} (hv : s.rspValid = false) (h : runWord w s = .next t)
    (ht : t.rspValid = true) (herr : rspStatus t.rsp ≠ 0#4) :
    t = s.respond .errIllegal false 0 0x00#8 ∨
    (decodeWord w = .ok .update ∧ s.ctrl = .uninit ∧ t = s.respond .errState false 0 0x00#8) ∨
    (∃ index, decodeWord w = .ok (.readByte index) ∧ s.cfg.bufLen ≤ index ∧ t = s.respond .errRange false 0 0x00#8) := by
  rcases runWord_next h with ⟨i, hi, he⟩ | ⟨-, hillegal⟩
  · rcases exec_error_cases hv he ht herr with ⟨rfl, hu, heq⟩ | ⟨index, rfl, hge, heq⟩
    · exact .inr (.inl ⟨hi, hu, heq⟩)
    · exact .inr (.inr ⟨index, hi, hge, heq⟩)
  · exact .inl hillegal

/-- Settles O36: of the three causes of an error, UPDATE in UNINIT is the one with status 2. -/
theorem errStateIsUpdateBeforeInit : Obligations.ErrStateIsUpdateBeforeInit := by
  unfold Obligations.ErrStateIsUpdateBeforeInit
  refine ⟨fun s hl hu => exec_update_uninit hl hu, fun w s t hv h ht hst => ?_⟩
  rcases runWord_error_cases hv h ht (by simp [hst]) with rfl | ⟨hw, hu, -⟩ | ⟨index, -, -, rfl⟩
  · -- ERR_ILLEGAL has status 1
    simp [statusCode] at hst
  · exact ⟨hw, hu⟩
  · -- ERR_RANGE has status 3
    simp [statusCode] at hst

/-- Settles O37: of the three causes of an error, READ_BYTE of an unmapped index is the one with status 3. -/
theorem errRangeIsReadByteOfAnUnmappedIndex : Obligations.ErrRangeIsReadByteOfAnUnmappedIndex := by
  unfold Obligations.ErrRangeIsReadByteOfAnUnmappedIndex
  refine ⟨fun s index hl hge => exec_readByte_unmapped hl (indexMapped_eq_false_iff.mpr hge),
    fun w s t hv h ht hst => ?_⟩
  rcases runWord_error_cases hv h ht (by simp [hst]) with rfl | ⟨-, -, rfl⟩ | ⟨index, hw, hge, -⟩
  · -- ERR_ILLEGAL has status 1
    simp [statusCode] at hst
  · -- ERR_STATE has status 2
    simp [statusCode] at hst
  · exact ⟨index, hw, hge⟩

/-- Settles O43: each of the three causes only responds, and responds with INR, IDX and DATA 0. -/
theorem errorsArePrecise : Obligations.ErrorsArePrecise := by
  unfold Obligations.ErrorsArePrecise
  intro w s t hv h ht herr
  obtain ⟨st, rfl⟩ : ∃ st, t = s.respond st false 0 0x00#8 := by
    rcases runWord_error_cases hv h ht herr with heq | ⟨-, -, heq⟩ | ⟨index, -, -, heq⟩
    · exact ⟨.errIllegal, heq⟩
    · exact ⟨.errState, heq⟩
    · exact ⟨.errRange, heq⟩
  exact ⟨rfl, rspWord_fields st false 0x00#8 (by decide)⟩

/-! ### Illegal words and geometry errors -/

/-- A word with reserved bits set or a reserved opcode is no command (R62, R66). -/
theorem exists_decodeError {w : CommandWord} (h : rsvField w ≠ 0 ∨ 8 ≤ opField w) : ∃ e, decodeWord w = .error e := by
  by_cases hr : rsvField w = 0
  · have hop : 8 ≤ opField w := h.resolve_left (not_not_intro hr)
    exact ⟨.reservedOpcode, by rw [decodeWord_of_rsv hr, assignOpcode_reserved hop]⟩
  · exact ⟨.reservedBits, decodeWord_of_rsv_ne hr⟩

/-- Settles O10: the accepted word is latched, decodes to no command, and is answered ERR_ILLEGAL. -/
theorem illegalWordIsAnsweredErrIllegal : Obligations.IllegalWordIsAnsweredErrIllegal := by
  unfold Obligations.IllegalWordIsAnsweredErrIllegal
  intro s w rest hl hb hrst hq hw
  obtain ⟨e, he⟩ := exists_decodeError hw
  calc step s = blockMove s.takeEvent := step_legal hl
    _ = runWord w (s.takeEvent.latch w rest) := blockMove_accepts hrst (by simpa using hb) hq
    _ = .next ((s.takeEvent.latch w rest).respond .errIllegal false 0 0x00#8) := runWord_illegal (by simpa using hl) he

/-- Settles O24: out of range the decoder's output is 0, and the three commands respond OK with every field 0. -/
theorem geometryErrorsAreSilent : Obligations.GeometryErrorsAreSilent := by
  unfold Obligations.GeometryErrorsAreSilent
  intro s x y c hl hout
  have hr : inRange s.cfg x y = false := inRange_eq_false_iff.mpr (by omega)
  refine ⟨exec_setPixel_outOfRange hl c hr, exec_getPixel_outOfRange hl hr, ?_⟩
  rw [exec_decode hl, addrDecode_outOfRange hr, respond_ok_zero]

/-! ### Nothing stops the block -/

/-- Settles O47: only an illegal configuration is refused. -/
theorem noCommandStopsALegalBlock : Obligations.NoCommandStopsALegalBlock := by
  unfold Obligations.NoCommandStopsALegalBlock
  intro i s hl
  rcases exec_total i s with ⟨-, hnext⟩ | ⟨hillegal, -⟩
  · exact hnext
  · simp [hl] at hillegal

/-- A latched word of a legal block goes on, legal or not (R160, R161). -/
theorem runWord_total (w : CommandWord) {s : State} (hl : s.cfg.legal = true) : ∃ t, runWord w s = .next t := by
  cases hw : decodeWord w with
  | ok i => rw [runWord_ok hw]; exact noCommandStopsALegalBlock i s hl
  | error e => exact ⟨_, runWord_illegal hl hw⟩

/-- A free block with no word to accept does nothing (R182). -/
theorem blockMove_idles {s : State} (hrst : s.ports.rst = false) (hb : s.busy = false) (hq : s.ports.cmdIn = []) :
    blockMove s = .next s := by
  simp [blockMove, hrst, hb, hq]

/-- Every move of a block with the invariant goes on: a sequence to resume has its cursor within its ranges. -/
theorem State.Inv.blockMove_total {s : State} (h : s.Inv) : ∃ t, blockMove s = .next t := by
  cases hrst : s.ports.rst with
  | true => exact ⟨s.takeReset, by simp [blockMove, hrst]⟩
  | false =>
    cases hb : s.busy with
    | false =>
      cases hq : s.ports.cmdIn with
      | nil => exact ⟨s, blockMove_idles hrst hb hq⟩
      | cons w rest => rw [blockMove_accepts hrst hb hq]; exact runWord_total w h.legal
    | true =>
      cases hv : s.rspValid with
      | false => exact ⟨_, h.blockMove_resumes (h.progress.mpr ⟨hb, hv⟩) hrst⟩
      | true =>
        cases hready : s.ports.rspReady with
        | true => exact ⟨_, blockMove_delivers hrst hb hv hready⟩
        | false => exact ⟨_, blockMove_holds hrst hb hv hready⟩

/-- Settles O51: the outside's event keeps the invariant, and the block's move then goes on. -/
theorem theBlockNeverStops : Obligations.TheBlockNeverStops := by
  unfold Obligations.TheBlockNeverStops
  intro s h
  rw [step_legal h.legal]
  exact h.takeEvent_inv.blockMove_total

end Sys2Proof.Machine
end

section
/-! Reset during a command, and a block with nothing to do (spec/70_reset_and_hazards.md R181, R182). A cut sequence is a
stalled one under reset: TXLOG is as the stall left it, and everything else of the command goes with the reset values. -/

namespace Sys2Proof.Machine

open Sys2Proof

/-! ### A block with nothing to do -/

/-- Settles O14: with no word to accept, the block's move after the outside's event is to do nothing. -/
theorem freeBlockDoesNothingOnItsOwn : Obligations.FreeBlockDoesNothingOnItsOwn := by
  unfold Obligations.FreeBlockDoesNothingOnItsOwn
  intro s hl hb hrst hq
  calc step s = blockMove s.takeEvent := step_legal hl
    _ = .next s.takeEvent := blockMove_idles hrst (by simpa using hb) hq

/-! ### A sequence cut short -/

/-- INIT, and UPDATE outside UNINIT, have emitted the first `n` transactions of their sequence where the sink stalls after
`n` of them (R117). -/
theorem exec_emits_take {s : State} {n : Nat} {i : Instr} {txs : List Transaction} (hl : s.cfg.legal = true)
    (hroom : s.ports.txRoom = some n)
    (hi : (i = .init ∧ txs = initSequenceTxs s) ∨ (i = .update ∧ s.ctrl ≠ .uninit ∧ txs = transferTxs s))
    (hn : n < txs.length) : ∃ t, exec i s = .next t ∧ t.txLog = s.txLog ++ txs.take n := by
  obtain ⟨hinit, hupdate⟩ := stalledSequenceHasEmittedAPrefix s n hl hroom
  rcases hi with ⟨rfl, rfl⟩ | ⟨rfl, hu, rfl⟩
  · -- INIT
    obtain ⟨t, ht, hlog, -⟩ := hinit (by simpa using hn)
    exact ⟨t, ht, hlog⟩
  · -- UPDATE
    obtain ⟨t, ht, hlog, -⟩ := hupdate hu (by simpa using hn)
    exact ⟨t, ht, hlog⟩

/-- Settles O41: the stalled command has emitted its `n` transactions and recorded no response, the step takes reset, which
keeps both histories, and UPDATE finds the block in UNINIT. -/
theorem resetCutsASequenceShort : Obligations.ResetCutsASequenceShort := by
  unfold Obligations.ResetCutsASequenceShort
  intro s n i txs hl hroom hi hn
  obtain ⟨t, ht, hlog⟩ := exec_emits_take hl hroom hi hn
  have hframe := exec_frame ht
  have hlt : t.cfg.legal = true := by rw [hframe.cfg]; exact hl
  exact ⟨t, _, ht, step_takesReset hlt rfl, hlog, hframe.rspLog, rfl, rfl, rfl, rfl, rfl, exec_update_uninit hlt rfl⟩

end Sys2Proof.Machine
end
